-- ==== Sys2Proof/Word.lean ====
section
/-! DEFINITION. Word.lean: the bit-vector types of the block (spec/00_scope.md R8): every quantity is unsigned. -/
namespace Sys2Proof

/-- One byte of a serialized command word (spec/20_memory.md R56). -/
abbrev Byte := BitVec 8

/-- A command is one 64-bit word (spec/30_encoding.md R72). -/
abbrev CommandWord := BitVec 64

/-- One row of the Phase Pattern: bit `k-1` is the level of line IN`k` (spec/10_state.md R28). -/
abbrev Row := BitVec 4

end Sys2Proof
end

