-- ==== Sys2Proof/Config.lean ====
section
/-! DEFINITION. Config.lean: the implementation parameters of spec/00_scope.md R6, and the free values. A constant
without a body is a value the spec leaves OPEN: no proof can see what it is, so what is proved holds for every value. -/
namespace Sys2Proof

/-- What the Output Bank answers to one line write (spec/20_memory.md R52). -/
inductive Answer where
  | ok
  | fail
deriving DecidableEq, Repr, Inhabited

/-- The unit of every wait (spec/00_scope.md R6, TIME_UNIT). -/
inductive TimeUnit where
  | microsecond
  | millisecond
deriving DecidableEq, Repr, Inhabited

/-- The Phase Pattern, a fixed sequence of at least two rows: row 0, row 1 and the rows after them
(spec/10_state.md R28, R31: `L >= 2` holds by the shape of the type; assumption 12). -/
structure Pattern where
  row0 : Row
  row1 : Row
  more : List Row
deriving DecidableEq, Repr, Inhabited

/-- The pattern the instance behind `State.reset` is built with. OPEN (R6, D18); DESIGN CHOICE: a free constant
(assumption 2, safe). -/
opaque Config.pattern : Pattern

/-- Whether a time source is supplied to the construction behind `State.reset`. OPEN (R6); DESIGN CHOICE: a free
constant (assumption 2, safe). -/
opaque Config.hasTs : Bool

/-- The configured inter-step interval of the construction behind `State.reset`. OPEN (R6, D13); DESIGN CHOICE: a
free constant (assumption 2, safe). -/
opaque Config.stepInterval : Nat

/-- TIME_UNIT. OPEN (R6, D16); DESIGN CHOICE: a free constant (assumption 20, safe). -/
opaque Config.timeUnit : TimeUnit

/-- STEPS_PER_REV less one, free: see `Config.stepsPerRev` (assumption 20, safe). -/
opaque Config.stepsPerRevLessOne : Nat

/-- STEPS_PER_REV: any natural above 0 (R6, R183, D19: OPEN). -/
def Config.stepsPerRev : Nat := Config.stepsPerRevLessOne + 1

/-- FREE VALUE: the Output Bank's answer to line write number `i` since reset, where the state's script does not
already fix it (R52, D24: "a free draw per write, under no law"; assumption 3, safe). -/
opaque Config.lineAnswer : Nat → Answer

end Sys2Proof
end

