-- ==== Sys2Proof/Syntax.lean ====
section
/-! DEFINITION. Syntax.lean: the commands (spec/30_encoding.md R70) and the assembler's lines (R80). -/
namespace Sys2Proof

/-- The Direction (spec/10_state.md R22): "one of Forward, Reverse. No other values permitted". -/
inductive Dir where
  | forward
  | reverse
deriving DecidableEq, Repr, Inhabited

/-- The block's commands, exactly the rows of spec/opcode_table.json (R70). Every value of every operand is legal
(R75), so the type holds the well-formed commands and no others. -/
inductive Instr where
  /-- SETDIR, `set_direction(d)` (R100). -/
  | setDir (d : Dir)
  /-- STEP, `step()` (R120). -/
  | step
  /-- STEPFOR, `step_for(n, interval)` (R150): `N_BITS` = 32 and `IVL_BITS` = 28 (00_scope.md R6, D17). -/
  | stepFor (n : BitVec 32) (ivl : BitVec 28)
deriving DecidableEq, Repr

/-- A line of the assembler (R80), its literals read but not yet checked against their widths. -/
inductive AsmLine where
  | setdir (d : Dir)
  | step
  | stepfor (n : Nat) (interval : Nat)
deriving DecidableEq, Repr

end Sys2Proof
end

