-- ==== Sys2Proof/WellFormed.lean ====
section
/-! DEFINITION. WellFormed.lean: what must be checked of raw terms: an assembler line's literals fit their fields
(spec/30_encoding.md R80), a configuration has at least two rows (spec/10_state.md R31). An `Instr` needs no check
(R75). -/
namespace Sys2Proof

/-- The assembler takes a line only if "`n` must fit 32 bits and `interval` 28 bits" (R80). -/
def AsmLine.wellFormed : AsmLine → Bool
  | .setdir _ => true
  | .step => true
  | .stepfor n interval => decide (n < 2 ^ 32) && decide (interval < 2 ^ 28)

/-- "A model refuses a configuration with `L < 2`" (spec/10_state.md R31): the check of a list of rows. -/
def rowsWellFormed (rows : List Row) : Bool := decide (2 ≤ rows.length)

end Sys2Proof
end

