-- ==== Sys2Proof/Decode.lean ====
section
/-! DEFINITION. Decode.lean: the 64-bit command word (spec/30_encoding.md R72 to R78): decoder, encoder, the byte
serialization (spec/20_memory.md R56, R57), and the words of an assembler line (R80). -/
namespace Sys2Proof

/-- Why some bytes are no command: named, and never given a meaning (R57, R76). -/
inductive DecodeError where
  /-- not exactly one whole 64-bit unit (R57). -/
  | partialWord
  /-- OPC is 0x0 or 0x4..0xF (R76). -/
  | illegalOpcode
  /-- a SETDIR word with a bit of `w[59:1]` set (R76). -/
  | setDirReservedBits
  /-- a STEP word with a bit of `w[59:0]` set (R76). -/
  | stepReservedBits
deriving DecidableEq, Repr

/-- OPC, bits 63..60 (R72). -/
def opcField (w : CommandWord) : BitVec 4 := w.extractLsb' 60 4

/-- `N` of STEPFOR, bits 31..0, unsigned (R75). -/
def nField (w : CommandWord) : BitVec 32 := w.extractLsb' 0 32

/-- `IVL` of STEPFOR, bits 59..32, unsigned (R75). -/
def ivlField (w : CommandWord) : BitVec 28 := w.extractLsb' 32 28

/-- The direction that bit 0 of a SETDIR word, or the DIR register, encodes (R22, R75). -/
def Dir.ofBit (b : Bool) : Dir := if b then .reverse else .forward

/-- `Forward` is 0 and `Reverse` is 1 (R22). -/
def Dir.bit : Dir → Bool
  | .forward => false
  | .reverse => true

/-- The decoder of R77, total on every 64-bit word. -/
def decodeWord (w : CommandWord) : Except DecodeError Instr :=
  if opcField w = 0x1#4 then
    if w.extractLsb' 1 59 = 0#59 then .ok (.setDir (Dir.ofBit (w.getLsbD 0))) else .error .setDirReservedBits
  else if opcField w = 0x2#4 then
    if w.extractLsb' 0 60 = 0#60 then .ok .step else .error .stepReservedBits
  else if opcField w = 0x3#4 then .ok (.stepFor (nField w) (ivlField w))
  else .error .illegalOpcode

/-- The encoder of R77. -/
def encode : Instr → CommandWord
  | .setDir d => 0x1000000000000000#64 ||| (if d.bit then 1#64 else 0#64)
  | .step => 0x2000000000000000#64
  | .stepFor n ivl => 0x3000000000000000#64 ||| (ivl.setWidth 64 <<< 32) ||| n.setWidth 64

/-- `count` bytes of `v`, least significant first (D28). -/
def leBytes : Nat → Nat → List Byte
  | 0, _ => []
  | count + 1, v => BitVec.ofNat 8 v :: leBytes count (v / 256)

/-- The eight bytes of a command word on a byte-wide transport, least significant first (R56, D28). -/
def wordBytes (w : CommandWord) : List Byte := leBytes 8 w.toNat

/-- The number some bytes spell, the first the least significant. -/
def leValue : List Byte → Nat
  | [] => 0
  | b :: bs => b.toNat + 256 * leValue bs

/-- Decode what came over the transport: "a command word is accepted only as a whole 64-bit unit" (R57). -/
def decodeBytes (bs : List Byte) : Except DecodeError Instr :=
  if bs.length = 8 then decodeWord (BitVec.ofNat 64 (leValue bs)) else .error .partialWord

/-- The bytes of an instruction whose bits are `w`, `nbits` of them listed and every bit above them 0: the whole
word, or more bytes than a word has where `nbits` asks for more. -/
def tableBytes (nbits w : Nat) : List Byte := leBytes (max 8 ((nbits + 7) / 8)) (w % 2 ^ nbits)

/-- What this decoder reads from an instruction of the opcode table. -/
def decodeTableWord (nbits w : Nat) : Option Instr := (decodeBytes (tableBytes nbits w)).toOption

/-- The command an assembler line stands for; none where "the assembler rejects the line" (R80). -/
def AsmLine.toInstr (line : AsmLine) : Option Instr :=
  if line.wellFormed then
    match line with
    | .setdir d => some (.setDir d)
    | .step => some .step
    | .stepfor n interval => some (.stepFor (BitVec.ofNat 32 n) (BitVec.ofNat 28 interval))
  else none

end Sys2Proof
end

