-- ==== Sys2Proof/Machine/State.lean ====
section
/-! DEFINITION. Machine/State.lean: the block's state (spec/10_state.md R20), the events a model records
(spec/20_memory.md R55), the environment's side of State, the stops, and reset (spec/70_reset_and_hazards.md R230). -/
namespace Sys2Proof.Machine

/-- The four output lines IN1..IN4 (R24). -/
inductive Line where
  | in1
  | in2
  | in3
  | in4
deriving DecidableEq, Repr

/-- `OUT[1..4]`: each line's level as the block last set it, `none` = UNKNOWN (R12, R24; assumption 6). -/
structure Lines where
  in1 : Option Bool
  in2 : Option Bool
  in3 : Option Bool
  in4 : Option Bool
deriving DecidableEq, Repr

/-- A command's result (spec/30_encoding.md R79). -/
inductive Result where
  | ok
  | outputFault
deriving DecidableEq, Repr

/-- The events of R55. -/
inductive Event where
  /-- `EvWrite(k, v, r)`: line `k` was asked for level `v` and the Output Bank answered `r`. -/
  | evWrite (k : Line) (v : Bool) (r : Answer)
  /-- `EvWait(t)`: the block blocked for at least `t` units of TIME_UNIT. -/
  | evWait (t : Nat)
  /-- `EvResult(r)`: a command returned `r`. -/
  | evResult (r : Result)
deriving DecidableEq, Repr

/-- What the Motion Caller can present: a command, as the bytes of its word, or another construction (R5, R57,
R231; assumption 4). -/
inductive Request where
  | command (bytes : List Byte)
  | construct (hasTs : Bool) (stepInterval : Nat)
deriving DecidableEq, Repr

/-- The whole state. The first nine fields are the block's own (R20: "Nothing else is state"); `events` is what a
model records (R55); the last three are the environment's side, the model's own fields (assumptions 3 and 4). -/
structure State where
  /-- PHASE, the Phase Index (R21). -/
  phase : Nat
  /-- DIR, the Direction (R22). -/
  dir : Dir
  /-- OUT[1..4] (R24). -/
  out : Lines
  /-- HAS_TS, fixed at reset (R26). -/
  hasTs : Bool
  /-- STEP_INTERVAL in TIME_UNIT, fixed at reset (R27). -/
  stepInterval : Nat
  /-- PATTERN, the ROM: nothing writes it (R7, R28). -/
  pattern : Pattern
  /-- BUSY: 1 from the acceptance of a command until its result is returned (R35). -/
  busy : Bool
  /-- SF_REM: the steps a STEPFOR has still to attempt (R35). -/
  sfRem : BitVec 32
  /-- SF_IVL: the interval operand of the running STEPFOR (R35). -/
  sfIvl : BitVec 28
  /-- The event history, oldest first (R55). -/
  events : List Event
  /-- The Output Bank's answers fixed in advance: answer `i` is for line write number `i` since reset. -/
  bankScript : List Answer
  /-- How many line writes the Output Bank has answered since reset. -/
  bankCount : Nat
  /-- What the Motion Caller presents next, oldest first. -/
  inbox : List Request
deriving DecidableEq, Repr

/-- The reasons the machine could stop with a fault: none. OUTPUT_FAULT is a result, "part of normal operation"
(R11), so a command that returns it ends in a next state (assumption 18). -/
inductive Fault where
deriving DecidableEq, Repr

/-- What the spec refuses: "a refusal means this spec gives the situation no meaning" (R11, R203). All safe: nothing
is claimed of a run past one. -/
inductive Refusal where
  /-- Raised by `exec` for an instruction that has no meaning in the model (no arm raises it). Safe. -/
  | notModelled (mnemonic : String)
  /-- Raised by `serve` for an illegal command word (R76) or a partial one (R57), with the decoder's reason. Safe. -/
  | rejectedWord (why : DecodeError)
  /-- Raised by every command presented while BUSY = 1 (R240). Safe. -/
  | commandWhileBusy
  /-- Raised by a construction after reset (R231). Safe. -/
  | secondReset
  /-- Raised by a construction while BUSY = 1 (R231). Safe. -/
  | resetWhileBusy
  /-- Raised by `step` in a state with BUSY = 1 and nothing presented: a command is in flight, of which the state
  holds no position (R246: "a command is still in flight. Such a run says nothing of the final state"); no step
  reaches such a state (assumption 10). Safe. -/
  | commandInFlight
  /-- Raised in a state whose PHASE is not below `L` (93_implementation_defined.md I24): by every command, and by `step`
  with nothing presented (assumption 11). Safe. -/
  | phaseOutOfRange
  /-- Raised by a pattern read outside the ROM (R50, I23); no command makes one. Safe. -/
  | romIndexOutOfRange
  /-- Raised by construction from fewer than two rows (R31, I25). Safe. -/
  | patternTooShort
  /-- Raised by DELAY_MS with a zero divisor (R182, I13). Safe. -/
  | delayZeroDivisor
deriving DecidableEq, Repr

/-- RESET(has_ts, step_interval) of R230, for an instance built with pattern `p`: PHASE 0 (D6), DIR Forward, no line
written and so every line UNKNOWN (D7), idle, no event. The last three fields are the model's own: nothing fixed of
the Output Bank's answers, nothing presented (assumptions 3 to 5). -/
def State.construct (p : Pattern) (hasTs : Bool) (stepInterval : Nat) : State where
  phase := 0
  dir := .forward
  out := { in1 := none, in2 := none, in3 := none, in4 := none }
  hasTs := hasTs
  stepInterval := stepInterval
  pattern := p
  busy := false
  sfRem := 0#32
  sfIvl := 0#28
  events := []
  bankScript := []
  bankCount := 0
  inbox := []

/-- The machine right after reset: a construction with the open parameters at their free constants (assumption 2). -/
def State.reset : State := State.construct Config.pattern Config.hasTs Config.stepInterval

end Sys2Proof.Machine
end

