-- ==== Sys2Proof/Machine/Operands.lean ====
section
/-! DEFINITION. Machine/Operands.lean: what a command's operands and the index arithmetic come to: the line numbers,
the pattern's rows and bits, NEXT (spec/41_step.md R121), the zero-extended operands of STEPFOR (spec/30_encoding.md
R75). -/
namespace Sys2Proof

/-- The rows of the pattern, row 0 first. -/
def Pattern.rows (p : Pattern) : List Row := p.row0 :: p.row1 :: p.more

/-- `L`, the pattern length (R6). -/
def Pattern.length (p : Pattern) : Nat := p.rows.length

/-- `L >= 2` (R31). -/
theorem Pattern.two_le_length (p : Pattern) : 2 ≤ p.length := by
  simp [Pattern.length, Pattern.rows]

/-- `PHASE_BITS = ceil(log2 L)` (R6); for `L >= 2` the number of bits of `L - 1`. -/
def Pattern.phaseBits (p : Pattern) : Nat := Nat.log2 (p.length - 1) + 1

/-- `PATTERN[i]`, for an index inside the ROM (R28). -/
def Pattern.row (p : Pattern) (i : Nat) (h : i < p.length) : Row := p.rows[i]'h

/-- A pattern from a list of rows; none for fewer than two (R31). -/
def Pattern.ofRows : List Row → Option Pattern
  | row0 :: row1 :: more => some { row0 := row0, row1 := row1, more := more }
  | _ => none

end Sys2Proof

namespace Sys2Proof.Machine

/-- The `k` of line IN`k` (R24). -/
def Line.number : Line → Nat
  | .in1 => 1
  | .in2 => 2
  | .in3 => 3
  | .in4 => 4

/-- The four lines in the order a step writes them (R54, D8). -/
def Line.all : List Line := [.in1, .in2, .in3, .in4]

/-- The line written after this one, none after IN4 (R54). -/
def Line.following : Line → Option Line
  | .in1 => some .in2
  | .in2 => some .in3
  | .in3 => some .in4
  | .in4 => none

/-- The level line IN`k` takes in a row: bit `k-1` (R28, D5). -/
def rowLevel (row : Row) (k : Line) : Bool := row.getLsbD (k.number - 1)

/-- `OUT[k]` (R24). -/
def Lines.get (o : Lines) : Line → Option Bool
  | .in1 => o.in1
  | .in2 => o.in2
  | .in3 => o.in3
  | .in4 => o.in4

/-- `OUT[k] <- v` (R24). -/
def Lines.set (o : Lines) (k : Line) (v : Option Bool) : Lines :=
  match k with
  | .in1 => { o with in1 := v }
  | .in2 => { o with in2 := v }
  | .in3 => { o with in3 := v }
  | .in4 => { o with in4 := v }

/-- NEXT(p, d) of R121, for pattern length `len`. -/
def nextIndex (len p : Nat) : Dir → Nat
  | .forward => (p + 1) % len
  | .reverse => (p + len - 1) % len

/-- NEXT's result is an index into the pattern: "its result is reduced mod `L`" (R121). -/
theorem nextIndex_lt {len : Nat} (h : 2 ≤ len) (p : Nat) (d : Dir) : nextIndex len p d < len := by
  cases d <;> exact Nat.mod_lt _ (by omega)

/-- `n` of STEPFOR as a count (R75: unsigned). -/
def stepCount (n : BitVec 32) : Nat := n.toNat

/-- `interval` of STEPFOR in TIME_UNIT (R75: unsigned, zero-extended). -/
def intervalUnits (ivl : BitVec 28) : Nat := ivl.toNat

end Sys2Proof.Machine
end

