-- ==== Sys2Proof/Machine/Flags.lean ====
section
/-! DEFINITION. Machine/Flags.lean: the block has no flags, condition codes or status register (spec/10_state.md
R34). The one bit a command gives back is its result (spec/30_encoding.md R79), which the block does not store: it is
read off the event that ended the command. -/
namespace Sys2Proof.Machine

/-- The result's one bit (R79): 0 = OK, 1 = OUTPUT_FAULT. -/
def Result.code : Result → BitVec 1
  | .ok => 0#1
  | .outputFault => 1#1

/-- The level a line has after a write of `v` answered `r` (R24, R52, D10): UNKNOWN after a failure. -/
def levelAfter (v : Bool) : Answer → Option Bool
  | .ok => some v
  | .fail => none

/-- The result of the last command that completed: the newest event, where that is an EvResult (R55, R60). -/
def State.lastResult (s : State) : Option Result :=
  match s.events.getLast? with
  | some (.evResult r) => some r
  | _ => none

end Sys2Proof.Machine
end

