-- ==== Sys2Proof/Machine/Ops.lean ====
section
/-! DEFINITION. Machine/Ops.lean: the primitives of spec/00_scope.md R10 over State: the pattern read, the line
write, the wait, and the acceptance and the end of a command. The block has no trap mechanism (spec/60_exceptions.md
R207): "a fault ends the command and returns OUTPUT_FAULT", which is `endCommand`; there is no return from one. -/
namespace Sys2Proof.Machine

/-- `record E` (R10, R55): append to the event history. -/
def record (e : Event) (s : State) : State := { s with events := s.events ++ [e] }

/-- The Output Bank's answer to line write number `i` since reset: the script's, else a free value (R52, D24;
assumption 3). -/
def State.answerAt (s : State) (i : Nat) : Answer := s.bankScript.getD i (Config.lineAnswer i)

/-- OutWrite(k, v) of R52, with its answer. -/
def outWrite (k : Line) (v : Bool) (s : State) : Answer × State :=
  let r := s.answerAt s.bankCount
  (r, record (.evWrite k v r) { s with out := s.out.set k (levelAfter v r), bankCount := s.bankCount + 1 })

/-- Wait(t) of R221: records EvWait(t) and returns. -/
def wait (t : Nat) (s : State) : State := record (.evWait t) s

/-- A wait, if a time source was supplied (R26: none is issued without one). -/
def waitIfTimed (t : Nat) (s : State) : State := if s.hasTs then wait t s else s

/-- MemRead(i, 4) of R50: "A model asked for `MemRead(i, 4)` with `i >= L` refuses". -/
def memRead (p : Pattern) (i : Nat) : Except Refusal Row :=
  if h : i < p.length then .ok (p.row i h) else .error .romIndexOutOfRange

/-- `BUSY <- 1` (R35). -/
def startCommand (s : State) : State := { s with busy := true }

/-- `BUSY <- 0`, then `record EvResult(r)`: the end of every command, with or without a fault (R100, R120, R150). -/
def endCommand (r : Result) (s : State) : State := record (.evResult r) { s with busy := false }

/-- The acceptance of a command with body `body`: refused while BUSY (R240), and in a state with PHASE outside the
pattern, which no run reaches (I24). DESIGN CHOICE: BUSY is looked at before PHASE, since the spec refuses both and orders
neither (assumption 11, safe). -/
def accept (s : State) (body : State → State) : Host.Outcome State Fault Refusal :=
  if s.busy then .refused .commandWhileBusy
  else if s.phase < s.pattern.length then .next (body (startCommand s))
  else .refused .phaseOutOfRange

end Sys2Proof.Machine
end

