-- ==== Sys2Proof/Machine/Direction.lean ====
section
/-! DEFINITION. Machine/Direction.lean: SETDIR (spec/40_set_direction.md). -/
namespace Sys2Proof.Machine

/-- SETDIR(d) of R100: "pure state mutation; sets current Direction; no I/O; always succeeds". -/
def execSetDir (d : Dir) (s : State) : Host.Outcome State Fault Refusal :=
  accept s fun s => endCommand .ok { s with dir := d }

end Sys2Proof.Machine
end

