-- ==== Sys2Proof/Machine/Stepping.lean ====
section
/-! DEFINITION. Machine/Stepping.lean: DoStep, STEP and STEPFOR (spec/41_step.md R120, spec/42_step_for.md R150). -/
namespace Sys2Proof.Machine

/-- The index a step moves to: NEXT(PHASE, DIR) (R120 step 1). -/
def targetIndex (s : State) : Nat := nextIndex s.pattern.length s.phase s.dir

/-- The target index lies in the pattern, whatever PHASE is (R121). -/
theorem targetIndex_lt (s : State) : targetIndex s < s.pattern.length :=
  nextIndex_lt s.pattern.two_le_length _ _

/-- The row a step applies: MemRead(NEXT(PHASE, DIR), 4) (R120 step 2), which never leaves the ROM (R50). -/
def targetRow (s : State) : Row := s.pattern.row (targetIndex s) (targetIndex_lt s)

/-- R120 step 3: write a row to some lines in order, stopping at the first write that fails (D8, D9). -/
def writeLines (row : Row) : List Line → State → Result × State
  | [], s => (.ok, s)
  | k :: ks, s =>
    match outWrite k (rowLevel row k) s with
    | (.ok, s') => writeLines row ks s'
    | (.fail, s') => (.outputFault, s')

/-- DoStep() of R120: PHASE commits after all four writes succeed (D11), then the wait of step 4. -/
def doStep (s : State) : Result × State :=
  match writeLines (targetRow s) Line.all s with
  | (.outputFault, s') => (.outputFault, s')
  | (.ok, s') => (.ok, waitIfTimed s.stepInterval { s' with phase := targetIndex s })

/-- STEP() of R120. -/
def execStep (s : State) : Host.Outcome State Fault Refusal :=
  accept s fun s =>
    match doStep s with
    | (r, s') => endCommand r s'

/-- What STEPFOR does after a step that succeeded (R150): count it, then wait SF_IVL if a further step follows (D14). -/
def afterCountedStep (s : State) : State :=
  let s' := { s with sfRem := s.sfRem - 1#32 }
  if s'.sfRem = 0#32 then s' else waitIfTimed (intervalUnits s'.sfIvl) s'

/-- The loop of R150, `while SF_REM > 0`, run at most `fuel` times; STEPFOR gives it `n`, which is enough. It stops
at the first failing step (D15). -/
def stepForLoop : Nat → State → Result × State
  | 0, s => (.ok, s)
  | fuel + 1, s =>
    if s.sfRem = 0#32 then (.ok, s)
    else
      match doStep s with
      | (.outputFault, s') => (.outputFault, s')
      | (.ok, s') => stepForLoop fuel (afterCountedStep s')

/-- `SF_REM <- n`, `SF_IVL <- interval` (R150). -/
def loadStepFor (n : BitVec 32) (ivl : BitVec 28) (s : State) : State := { s with sfRem := n, sfIvl := ivl }

/-- `SF_REM <- 0`, `SF_IVL <- 0` (R150): "They are 0 whenever `BUSY` is 0" (R35; assumption 19). -/
def clearStepFor (s : State) : State := { s with sfRem := 0#32, sfIvl := 0#28 }

/-- STEPFOR(n, interval) of R150. -/
def execStepFor (n : BitVec 32) (ivl : BitVec 28) (s : State) : Host.Outcome State Fault Refusal :=
  accept s fun s =>
    match stepForLoop (stepCount n) (loadStepFor n ivl s) with
    | (r, s') => endCommand r (clearStepFor s')

end Sys2Proof.Machine
end

