-- ==== Sys2Proof/Machine/Dispatch.lean ====
section
/-! DEFINITION. Machine/Dispatch.lean: one arm per command of spec/opcode_table.json. -/
namespace Sys2Proof.Machine

def exec (i : Instr) (s : State) : Host.Outcome State Fault Refusal :=
  match i with
  | .setDir d => Sys2Proof.Machine.execSetDir d s
  | .step => Sys2Proof.Machine.execStep s
  | .stepFor n ivl => Sys2Proof.Machine.execStepFor n ivl s

end Sys2Proof.Machine
end

