-- ==== Sys2Proof/Machine/Caller.lean ====
section
/-! DEFINITION. Machine/Caller.lean: what becomes of what the Motion Caller presents (spec/00_scope.md R5,
spec/70_reset_and_hazards.md R230 to R240), and construction. -/
namespace Sys2Proof.Machine

/-- A presented request: a command's bytes are decoded and run; a construction after reset is refused (R231), as is
one while a command runs. DESIGN CHOICE: an illegal or partial word is refused as such even while BUSY, since the bytes
are decoded before `exec` looks at BUSY or PHASE; the spec refuses both and orders neither (assumptions 10 and 11, safe). -/
def serve (q : Request) (s : State) : Host.Outcome State Fault Refusal :=
  match q with
  | .command bytes =>
    match decodeBytes bytes with
    | .ok i => exec i s
    | .error why => .refused (.rejectedWord why)
  | .construct _ _ => .refused (if s.busy then .resetWhileBusy else .secondReset)

/-- Nothing is presented: the idle block does nothing of its own (R204: "no background activity"). With BUSY = 1 a
command is in flight and the state says nothing of what follows (R246; assumption 10). A state with PHASE outside the
pattern is refused here too (I24); DESIGN CHOICE: BUSY is looked at first, as in `accept` (assumption 11, safe). -/
def idle (s : State) : Host.Outcome State Fault Refusal :=
  if s.busy then .refused .commandInFlight
  else if s.phase < s.pattern.length then .next s
  else .refused .phaseOutOfRange

/-- The Motion Caller presents its oldest request; the block serves it. -/
def serveInbox (s : State) : Host.Outcome State Fault Refusal :=
  match s.inbox with
  | [] => idle s
  | q :: rest => serve q { s with inbox := rest }

/-- The request that is an instruction of the opcode table, `nbits` bits of it listed in `w`. -/
def tableRequest (nbits w : Nat) : Request := .command (tableBytes nbits w)

/-- Construction from a list of rows: "A model refuses a configuration with `L < 2`" (R31). -/
def constructFromRows (rows : List Row) (hasTs : Bool) (stepInterval : Nat) : Except Refusal State :=
  match Pattern.ofRows rows with
  | some p => .ok (State.construct p hasTs stepInterval)
  | none => .error .patternTooShort

end Sys2Proof.Machine
end

