-- ==== Sys2Proof/Machine/Step.lean ====
section
/-! DEFINITION. Machine/Step.lean: one step of the machine is one request of the Motion Caller served to its result
(assumption 1). The block fetches nothing (spec/10_state.md R33). -/
namespace Sys2Proof.Machine

/-- One step: the oldest request in `inbox`, served. -/
def step (s : State) : Host.Outcome State Fault Refusal := serveInbox s

/-- `s` with that instruction presented next: the request in front of all others (assumption 4). -/
def State.withFetchWord (s : State) (nbits w : Nat) : State :=
  { s with inbox := tableRequest nbits w :: s.inbox }

end Sys2Proof.Machine
end

