-- ==== Sys2Proof/Machine/Assembler.lean ====
section
/-! DEFINITION. Machine/Assembler.lean: the two written forms of a command (spec/30_encoding.md R80), read from a
line's characters. The forms are taken as the table of R80 spells them; a space after the comma may be left out
(assumption 16). -/
namespace Sys2Proof

/-- The value of a digit in some base, if the character is one. -/
def digitValue (base : Nat) (c : Char) : Option Nat :=
  let v :=
    if '0' ≤ c ∧ c ≤ '9' then c.toNat - '0'.toNat
    else if 'a' ≤ c ∧ c ≤ 'f' then c.toNat - 'a'.toNat + 10
    else if 'A' ≤ c ∧ c ≤ 'F' then c.toNat - 'A'.toNat + 10
    else base
  if v < base then some v else none

/-- The number some digits spell after the value `acc` of the digits before them. -/
def readDigits (base : Nat) : List Char → Nat → Option Nat
  | [], acc => some acc
  | c :: cs, acc =>
    match digitValue base c with
    | some v => readDigits base cs (base * acc + v)
    | none => none

/-- A literal: "unsigned decimal or `0x` hex" (R80). -/
def readLiteral : List Char → Option Nat
  | [] => none
  | '0' :: 'x' :: [] => none
  | '0' :: 'x' :: digits => readDigits 16 digits 0
  | digits => readDigits 10 digits 0

/-- What follows `lead` in `cs`. -/
def dropLead : List Char → List Char → Option (List Char)
  | [], cs => some cs
  | _ :: _, [] => none
  | l :: ls, c :: cs => if l = c then dropLead ls cs else none

/-- `n, interval`. -/
def readPair (cs : List Char) : Option AsmLine :=
  match readLiteral (cs.takeWhile (· ≠ ',')), cs.dropWhile (· ≠ ',') with
  | some n, ',' :: ' ' :: rest => (readLiteral rest).map (AsmLine.stepfor n)
  | some n, ',' :: rest => (readLiteral rest).map (AsmLine.stepfor n)
  | _, _ => none

/-- The text without a closing parenthesis at its end; none where there is no such parenthesis. -/
def dropClosing (cs : List Char) : Option (List Char) :=
  if cs.getLast? = some ')' then some cs.dropLast else none

/-- The mnemonic form (R80). -/
def readMnemonic (cs : List Char) : Option AsmLine :=
  if cs = "SETDIR F".toList then some (.setdir .forward)
  else if cs = "SETDIR R".toList then some (.setdir .reverse)
  else if cs = "STEP".toList then some .step
  else
    match dropLead "STEPFOR ".toList cs with
    | some rest => readPair rest
    | none => none

/-- The API form, the source's own (R80). -/
def readApi (cs : List Char) : Option AsmLine :=
  if cs = "set_direction(Forward)".toList then some (.setdir .forward)
  else if cs = "set_direction(Reverse)".toList then some (.setdir .reverse)
  else if cs = "step()".toList then some .step
  else
    match dropLead "step_for(".toList cs with
    | some rest => (dropClosing rest).bind readPair
    | none => none

/-- A line in either form. -/
def readLine (cs : List Char) : Option AsmLine :=
  match readMnemonic cs with
  | some line => some line
  | none => readApi cs

/-- The word of a line; none where "the assembler rejects the line" (R80). -/
def assemble (line : AsmLine) : Option CommandWord := line.toInstr.map encode

/-- The word of a line's text. -/
def assembleText (text : String) : Option CommandWord := (readLine text.toList).bind assemble

end Sys2Proof
end

