-- ==== Sys2Proof/Machine/Delay.lean ====
section
/-! DEFINITION. Machine/Delay.lean: the speed-to-delay conversion (spec/43_speed_conversion.md), a pure function and no
command, and the unit of the waits (spec/00_scope.md R6). -/
namespace Sys2Proof

/-- `t` units of time in microseconds (R6, D16). -/
def TimeUnit.micros : TimeUnit → Nat → Nat
  | .microsecond, t => t
  | .millisecond, t => 1000 * t

end Sys2Proof

namespace Sys2Proof.Machine

/-- DELAY_MS(rpm, spr) of R180 on unbounded naturals, truncating; refused for a zero divisor (R182; assumption 13). -/
def delayMs (rpm spr : Nat) : Except Refusal Nat :=
  if rpm = 0 ∨ spr = 0 then .error .delayZeroDivisor else .ok (60000 / (rpm * spr))

/-- The conversion with this hardware's STEPS_PER_REV (R183). -/
def delayMsOfRpm (rpm : Nat) : Except Refusal Nat := delayMs rpm Config.stepsPerRev

/-- The least time, in microseconds, that a wait of `t` units blocks for (R221: "at least `t` units of `TIME_UNIT`"); it
has no upper bound and no rule depends on it (R245). -/
def waitAtLeastMicros (t : Nat) : Nat := Config.timeUnit.micros t

end Sys2Proof.Machine
end

