-- ==== Sys2Proof/Machine/Flight.lean ====
section
/-! DEFINITION. Machine/Flight.lean: a second view of the same commands, one event at a time, in which the states
inside a running command stand (BUSY = 1, spec/10_state.md R35, R36): the pseudocode of R100, R120 and R150 with its
position written out. `exec` is the model; this view is stated equal to it (assumption 17). -/
namespace Sys2Proof.Machine

/-- Where a running command stands: what it does next. -/
inductive Position where
  /-- write line `k` of the target row (R120 step 3). -/
  | line (k : Line)
  /-- wait STEP_INTERVAL after a step that succeeded (R120 step 4). -/
  | pace
  /-- wait SF_IVL between two steps of a STEPFOR (R150). -/
  | gap
  /-- return the result (R55). -/
  | answer (r : Result)
deriving DecidableEq, Repr

/-- The block with the command it is running, if any. -/
structure Flight where
  st : State
  /-- the running command is a STEPFOR. -/
  counted : Bool
  /-- `none`: idle (R36). -/
  pos : Option Position
deriving DecidableEq, Repr

/-- A command just accepted (R35: BUSY is set at accept). `offer` has checked BUSY and PHASE; `launch`, `advance` and
`run` check neither again (assumption 17). -/
def launch (i : Instr) (s : State) : Flight :=
  match i with
  | .setDir d => { st := { startCommand s with dir := d }, counted := false, pos := some (.answer .ok) }
  | .step => { st := startCommand s, counted := false, pos := some (.line .in1) }
  | .stepFor n ivl =>
    { st := loadStepFor n ivl (startCommand s), counted := true,
      pos := some (if n = 0#32 then .answer .ok else .line .in1) }

/-- A step succeeded and its own wait is over: return, or count it and go on (R150). -/
def Flight.stepDone (f : Flight) : Flight :=
  if f.counted then
    let st := { f.st with sfRem := f.st.sfRem - 1#32 }
    if st.sfRem = 0#32 then { f with st := st, pos := some (.answer .ok) }
    else if st.hasTs then { f with st := st, pos := some .gap }
    else { f with st := st, pos := some (.line .in1) }
  else { f with pos := some (.answer .ok) }

/-- Line write `k` of the running step; after IN4 the commit of PHASE (R120, R61). -/
def Flight.writeLine (f : Flight) (k : Line) : Flight :=
  match outWrite k (rowLevel (targetRow f.st) k) f.st with
  | (.fail, st) => { f with st := st, pos := some (.answer .outputFault) }
  | (.ok, st) =>
    match k.following with
    | some k' => { f with st := st, pos := some (.line k') }
    | none =>
      let st := { st with phase := targetIndex f.st }
      if st.hasTs then { f with st := st, pos := some .pace } else { f with st := st }.stepDone

/-- The block's next event (R59); nothing while it is idle. -/
def Flight.advance (f : Flight) : Flight :=
  match f.pos with
  | none => f
  | some (.line k) => f.writeLine k
  | some .pace => { f with st := wait f.st.stepInterval f.st }.stepDone
  | some .gap => { f with st := wait (intervalUnits f.st.sfIvl) f.st, pos := some (.line .in1) }
  | some (.answer r) => { f with st := endCommand r (if f.counted then clearStepFor f.st else f.st), pos := none }

/-- `m` events. -/
def Flight.run : Nat → Flight → Flight
  | 0, f => f
  | m + 1, f => Flight.run m f.advance

/-- The most events a command takes: six a step (four line writes, two waits) and its result. -/
def eventBound : Instr → Nat
  | .setDir _ => 1
  | .step => 6
  | .stepFor n _ => 6 * stepCount n + 1

/-- A request presented to the block, idle or not: a command is accepted only when none runs (R240), a construction
never (R231). The spec refuses an illegal or partial word, and refuses a command while BUSY, and does not say which
refusal a bad word gets while BUSY; DESIGN CHOICE: the bytes are decoded first, as in `serve` (assumption 10, safe), and BUSY is looked at before PHASE (assumption 11,
safe). -/
def Flight.offer (f : Flight) (q : Request) : Host.Outcome Flight Fault Refusal :=
  match q with
  | .construct _ _ => .refused (if f.st.busy then .resetWhileBusy else .secondReset)
  | .command bytes =>
    match decodeBytes bytes with
    | .error why => .refused (.rejectedWord why)
    | .ok i =>
      if f.st.busy then .refused .commandWhileBusy
      else if f.st.phase < f.st.pattern.length then .next (launch i f.st)
      else .refused .phaseOutOfRange

end Sys2Proof.Machine
end

