-- ==== Sys2Proof/Safety.lean ====
section
/-! DEFINITION. Safety.lean: the terms the statements use: the invariant of the states between commands, what an
event history says, the events a step and a STEPFOR issue, runs of commands. -/
namespace Sys2Proof.Machine

/-- Between two commands: idle, PHASE a valid position of the pattern (R30), SF_REM and SF_IVL 0 (R35). -/
abbrev State.Inv (s : State) : Prop :=
  s.busy = false ∧ s.phase < s.pattern.length ∧ s.sfRem = 0#32 ∧ s.sfIvl = 0#28

/-- A command is accepted: none runs and PHASE is a position of the pattern. -/
abbrev State.Ready (s : State) : Prop := s.busy = false ∧ s.phase < s.pattern.length

/-- The next `m` line writes are all answered `ok`. -/
abbrev State.NextOk (s : State) (m : Nat) : Prop := ∀ j < m, s.answerAt (s.bankCount + j) = .ok

/-- The next `m` line writes are answered `ok` and the one after them `fail`. -/
abbrev State.FailsAfter (s : State) (m : Nat) : Prop :=
  s.NextOk m ∧ s.answerAt (s.bankCount + m) = .fail

/-- All four lines at a row's levels. -/
def Lines.ofRow (row : Row) : Lines where
  in1 := some (rowLevel row .in1)
  in2 := some (rowLevel row .in2)
  in3 := some (rowLevel row .in3)
  in4 := some (rowLevel row .in4)

/-- The index after `i` steps: NEXT^i(PHASE, DIR). -/
def State.indexAfter (s : State) : Nat → Nat
  | 0 => s.phase
  | i + 1 => nextIndex s.pattern.length (s.indexAfter i) s.dir

/-- The row `PATTERN[NEXT^i(PHASE, DIR)]` of step `i`; row 0 where the index is outside the pattern, which
`indexAfter` never gives for `i > 0`. -/
def State.rowAfter (s : State) (i : Nat) : Row := s.pattern.rows.getD (s.indexAfter i) s.pattern.row0

/-- `EvWrite(1..4, row, ok)`: a completed pattern write. -/
def rowEvents (row : Row) : List Event := Line.all.map fun k => .evWrite k (rowLevel row k) .ok

/-- A wait's events: none without a time source (R26). -/
def waitEvents (hasTs : Bool) (t : Nat) : List Event := if hasTs then [.evWait t] else []

/-- The events of step `i` (from 1) of a STEPFOR of which every write succeeds, where `last` says whether it is the
last one: its four writes, its own wait, the interval wait if a step follows (R151). -/
def State.countedStepEvents (s : State) (interval i : Nat) (last : Bool) : List Event :=
  rowEvents (s.rowAfter i) ++ waitEvents s.hasTs s.stepInterval ++
    (if last then [] else waitEvents s.hasTs interval)

/-- The events of the first `j` steps of an `n`-step STEPFOR, every write of theirs answered `ok`. -/
def State.stepsEvents (s : State) (interval n j : Nat) : List Event :=
  (List.range j).flatMap fun i => s.countedStepEvents interval (i + 1) (i + 1 == n)

/-- The events up to and with the failing write of line `k` (R124). -/
def failedRowEvents (row : Row) (k : Line) : List Event :=
  (rowEvents row).take (k.number - 1) ++ [.evWrite k (rowLevel row k) .fail]

/-- The lines after a row's write failed at line `k` (R124): the new row before it, UNKNOWN at it, as before past it. -/
def Lines.failedAt (o : Lines) (row : Row) (k j : Line) : Option Bool :=
  if j.number < k.number then some (rowLevel row j) else if j = k then none else o.get j

/-- How many events of a history satisfy a test. -/
def countEvents (p : Event → Bool) (es : List Event) : Nat := es.countP p

/-- An EvWrite, whatever its answer. -/
def Event.isWrite : Event → Bool
  | .evWrite _ _ _ => true
  | _ => false

/-- An EvWrite answered `fail`. -/
def Event.isFailedWrite : Event → Bool
  | .evWrite _ _ .fail => true
  | _ => false

/-- The last write of a completed pattern write: IN4 answered `ok` (a step writes IN4 only after the other three). -/
def Event.completesRow : Event → Bool
  | .evWrite .in4 _ .ok => true
  | _ => false

/-- An EvWait. -/
def Event.isWait : Event → Bool
  | .evWait _ => true
  | _ => false

/-- An EvResult. -/
def Event.isResult : Event → Bool
  | .evResult _ => true
  | _ => false

/-- The level a history says line `k` has (R24): that of its last write, UNKNOWN if that failed or there was none. -/
def levelOf (k : Line) (es : List Event) : Option Bool :=
  es.foldl (fun level e =>
    match e with
    | .evWrite k' v r => if k' = k then levelAfter v r else level
    | _ => level) none

/-- The invariant of R24 and R25: the lines are as the block's own writes left them. -/
def State.LinesAgree (s : State) : Prop := ∀ k, s.out.get k = levelOf k s.events

/-- What a history says of rows: the levels written since the last IN1 write, and the last row all four of whose
writes returned `ok`. -/
structure RowTrack where
  acc : Row
  last : Option Row
deriving DecidableEq, Repr

/-- One event seen by the row tracker: a row begins with IN1 and is complete with IN4's `ok`. -/
def RowTrack.see (t : RowTrack) : Event → RowTrack
  | .evWrite .in1 v .ok => { t with acc := if v then 0x1#4 else 0x0#4 }
  | .evWrite .in2 v .ok => { t with acc := t.acc ||| (if v then 0x2#4 else 0x0#4) }
  | .evWrite .in3 v .ok => { t with acc := t.acc ||| (if v then 0x4#4 else 0x0#4) }
  | .evWrite .in4 v .ok => { acc := t.acc, last := some (t.acc ||| (if v then 0x8#4 else 0x0#4)) }
  | _ => t

/-- The last row a history completed: none if no step has succeeded. -/
def lastRow (es : List Event) : Option Row := (es.foldl RowTrack.see { acc := 0x0#4, last := none }).last

/-- The "index matches last-written pattern" invariant (R130): PHASE is the index of a row with the levels of the last
completed pattern write, and 0 if there was none. -/
def State.IndexMatches (s : State) : Prop :=
  match lastRow s.events with
  | none => s.phase = 0
  | some row => s.pattern.rows[s.phase]? = some row

/-- A list of commands, each issued after the result of the one before it (R5); the first stop ends the run. -/
def execAll : List Instr → State → Host.Outcome State Fault Refusal
  | [], s => .next s
  | i :: is, s =>
    match exec i s with
    | .next t => execAll is t
    | .fault r => .fault r
    | .refused r => .refused r

/-- `m` STEP commands in a row. -/
def execSteps (m : Nat) (s : State) : Host.Outcome State Fault Refusal := execAll (List.replicate m .step) s

/-- The commands that returned OK in a history. -/
def okResults (es : List Event) : Nat := countEvents (fun e => e == .evResult .ok) es

/-- The fields no command writes: the configuration and the ROM (R6, R7, R26, R27). -/
def SameConfiguration (s t : State) : Prop :=
  t.pattern = s.pattern ∧ t.hasTs = s.hasTs ∧ t.stepInterval = s.stepInterval

end Sys2Proof.Machine
end

