-- ==== Sys2Proof/Certificates/Slice0/Obligations.lean ====
section
/-! DEFINITION. Certificates/Slice0/Obligations.lean: the statements for the provers. Where a docstring names a D<n>, the
clause rests on the spec's own decision of spec/92_eei_decisions.md; "[derived]" means the spec marks the rule as its own
inference. -/
open Sys2Proof
open Sys2Proof.Machine

/-! ### Reset -/

/-- Construction leaves PHASE 0 (D6), DIR Forward, every line UNKNOWN (D7), the configuration it was given (D13), the
block idle and no event recorded; `State.reset` is a construction with the open parameters (log 2). -/
def Obligations.ConstructionLeavesTheResetState : Prop :=
  (∀ (p : Pattern) (hasTs : Bool) (stepInterval : Nat),
    (State.construct p hasTs stepInterval).phase = 0 ∧
    (State.construct p hasTs stepInterval).dir = .forward ∧
    (∀ k, (State.construct p hasTs stepInterval).out.get k = none) ∧
    (State.construct p hasTs stepInterval).hasTs = hasTs ∧
    (State.construct p hasTs stepInterval).stepInterval = stepInterval ∧
    (State.construct p hasTs stepInterval).pattern = p ∧
    (State.construct p hasTs stepInterval).busy = false ∧
    (State.construct p hasTs stepInterval).sfRem = 0#32 ∧
    (State.construct p hasTs stepInterval).sfIvl = 0#28 ∧
    (State.construct p hasTs stepInterval).events = []) ∧
  ∃ p hasTs stepInterval, State.reset = State.construct p hasTs stepInterval

/-- The three invariants below hold after every construction, `State.reset` among them. -/
def Obligations.InvariantsHoldAtReset : Prop :=
  (∀ (p : Pattern) (hasTs : Bool) (stepInterval : Nat),
    (State.construct p hasTs stepInterval).Inv ∧
    (State.construct p hasTs stepInterval).LinesAgree ∧
    (State.construct p hasTs stepInterval).IndexMatches) ∧
  State.reset.Inv ∧ State.reset.LinesAgree ∧ State.reset.IndexMatches

/-- A configuration with fewer than two rows is refused (10_state.md R31 [derived]); any other is built with exactly
its rows. -/
def Obligations.ConstructionRefusesFewerThanTwoRows : Prop :=
  ∀ (rows : List Row) (hasTs : Bool) (stepInterval : Nat),
    (rowsWellFormed rows = false → constructFromRows rows hasTs stepInterval = .error .patternTooShort) ∧
    (rowsWellFormed rows = true → ∃ p : Pattern, p.rows = rows ∧
      constructFromRows rows hasTs stepInterval = .ok (State.construct p hasTs stepInterval))

/-! ### SETDIR -/

/-- R100: SETDIR sets DIR, returns OK with that one event and changes nothing else; any number of SETDIR in a row leaves
the last direction; its two words. -/
def Obligations.SetDirWritesDirectionOnly : Prop :=
  (∀ (d : Dir) (s : State), s.Ready →
    exec (.setDir d) s = .next { s with dir := d, events := s.events ++ [.evResult .ok] }) ∧
  (∀ (ds : List Dir) (d : Dir) (s : State), s.Ready →
    execAll (ds.map .setDir ++ [.setDir d]) s =
      .next { s with dir := d, events := s.events ++ List.replicate (ds.length + 1) (.evResult .ok) }) ∧
  encode (.setDir .forward) = 0x1000000000000000#64 ∧ encode (.setDir .reverse) = 0x1000000000000001#64

/-- R101: the index is the same after a SETDIR as before it. -/
def Obligations.SetDirKeepsPhaseIndex : Prop :=
  ∀ (d : Dir) (s t : State), exec (.setDir d) s = .next t → t.phase = s.phase

/-- R23 and R129: DIR changes only when a SETDIR command writes it: no STEP, STEPFOR (whatever the result), line write or
wait does; and a step of the machine that changes DIR has served a SETDIR of the new direction. -/
def Obligations.OnlySetDirChangesDirection : Prop :=
  (∀ (i : Instr) (s t : State), (∀ d, i ≠ .setDir d) → exec i s = .next t → t.dir = s.dir) ∧
  (∀ (k : Line) (v : Bool) (s : State), (outWrite k v s).2.dir = s.dir) ∧
  (∀ (units : Nat) (s : State), (wait units s).dir = s.dir) ∧
  (∀ s t : State, step s = .next t → t.dir ≠ s.dir →
    ∃ bytes rest, s.inbox = .command bytes :: rest ∧ decodeBytes bytes = .ok (.setDir t.dir))

/-- A SETDIR takes effect for the very next STEP (40_set_direction.md R102 and 70_reset_and_hazards.md R244, [derived]). -/
def Obligations.DirectionGovernsTheNextStep : Prop :=
  ∀ (d : Dir) (s t u : State), exec (.setDir d) s = .next t → exec .step t = .next u → u.lastResult = some .ok →
    u.phase = nextIndex s.pattern.length s.phase d

/-- The first STEP after reset applies row 1 under Forward and row L-1 after SETDIR R (70_reset_and_hazards.md R233
[derived]; D6), whatever the Output Bank's later answers are. -/
def Obligations.FirstStepAfterResetAppliesNeighbourOfRowZero : Prop :=
  ∀ (p : Pattern) (hasTs : Bool) (stepInterval : Nat) (later : List Answer),
    (∃ t, execAll [.step] { State.construct p hasTs stepInterval with bankScript := List.replicate 4 .ok ++ later }
        = .next t ∧ t.phase = 1 ∧ t.out = Lines.ofRow p.row1) ∧
    (∃ t, execAll [.setDir .reverse, .step]
        { State.construct p hasTs stepInterval with bankScript := List.replicate 4 .ok ++ later }
        = .next t ∧ t.phase = p.length - 1 ∧ p.rows.getLast?.map Lines.ofRow = some t.out)

/-! ### STEP -/

/-- R121: Forward goes from L-1 to 0, Reverse from 0 to L-1, each else by one; the formulas; the result is an index. -/
def Obligations.NextIndexWrapsAroundThePattern : Prop :=
  ∀ (len p : Nat), 2 ≤ len → p < len →
    nextIndex len p .forward = (p + 1) % len ∧ nextIndex len p .reverse = (p + len - 1) % len ∧
    nextIndex len p .forward = (if p = len - 1 then 0 else p + 1) ∧
    nextIndex len p .reverse = (if p = 0 then len - 1 else p - 1) ∧
    ∀ d, nextIndex len p d < len

/-- A STEP whose four line writes return `ok` (41_step.md R122 [derived], R123 with D12, D13): the whole next state. -/
def Obligations.StepWithFourWritesOk : Prop :=
  ∀ s : State, s.Ready → s.NextOk 4 →
    exec .step s = .next
      { s with
        phase := nextIndex s.pattern.length s.phase s.dir
        out := Lines.ofRow (targetRow s)
        bankCount := s.bankCount + 4
        events := s.events ++ (rowEvents (targetRow s) ++ waitEvents s.hasTs s.stepInterval ++ [.evResult .ok]) } ∧
    s.pattern.rows[nextIndex s.pattern.length s.phase s.dir]? = some (targetRow s)

/-- A STEP whose first failing write is that of line `k` (41_step.md R124; D8, D9, D10, D12): the whole next state. -/
def Obligations.StepWithFailingWrite : Prop :=
  ∀ (s : State) (k : Line), s.Ready → s.FailsAfter (k.number - 1) →
    ∃ t, exec .step s = .next t ∧
      t = { s with
            out := t.out
            bankCount := s.bankCount + k.number
            events := s.events ++ (failedRowEvents (targetRow s) k ++ [.evResult .outputFault]) } ∧
      ∀ j, t.out.get j = s.out.failedAt (targetRow s) k j

/-- R29: after every STEP that returns OK the lines equal `PATTERN[PHASE]` bit for bit. After one that returns
OUTPUT_FAULT some line is UNKNOWN and every line is UNKNOWN, at the new row or as before (41_step.md R124, with the
spec's decisions D8, D9 and, for UNKNOWN, D10; logs 6 and 7), so this fails to hold; and such a STEP exists. -/
def Obligations.SuccessfulStepAppliesItsRow : Prop :=
  (∀ s t : State, exec .step s = .next t → t.lastResult = some .ok →
    ∃ row, t.pattern.rows[t.phase]? = some row ∧ ∀ k, t.out.get k = some (rowLevel row k)) ∧
  (∀ s t : State, exec .step s = .next t → t.lastResult = some .outputFault →
    (∃ k, t.out.get k = none) ∧
    ∀ k, t.out.get k = none ∨ t.out.get k = some (rowLevel (targetRow s) k) ∨ t.out.get k = s.out.get k) ∧
  ∃ s t : State, s.Inv ∧ exec .step s = .next t ∧ t.lastResult = some .outputFault

/-- STEP is never a no-op (41_step.md R128 [derived]): at least one EvWrite; a successful one issues exactly four and
moves PHASE to its neighbour, which is another index. -/
def Obligations.StepIsNeverANoOp : Prop :=
  ∀ s t : State, exec .step s = .next t →
    ∃ new, t.events = s.events ++ new ∧ 1 ≤ countEvents Event.isWrite new ∧
      (t.lastResult = some .ok →
        countEvents Event.isWrite new = 4 ∧ t.phase = nextIndex s.pattern.length s.phase s.dir ∧ t.phase ≠ s.phase)

/-- The forward and the reverse law with faults (41_step.md R125, R126 [derived]): after `m` STEP commands, of which `c`
returned OK, PHASE is `(p + c) mod L` or `(p - c) mod L`. -/
def Obligations.PhaseCountsTheSuccessfulSteps : Prop :=
  ∀ (m : Nat) (s t : State), s.Ready → execSteps m s = .next t →
    ∃ c, c ≤ m ∧ okResults t.events = okResults s.events + c ∧
      (s.dir = .forward → t.phase = (s.phase + c) % s.pattern.length) ∧
      (s.dir = .reverse → t.phase = (s.phase + s.pattern.length - c % s.pattern.length) % s.pattern.length)

/-- `m` STEP commands whose writes all return `ok` all return OK (the premise of R125 and R126 is met). -/
def Obligations.StepsWithAllWritesOkAllSucceed : Prop :=
  ∀ (m : Nat) (s : State), s.Ready → s.NextOk (4 * m) →
    ∃ t, execSteps m s = .next t ∧ okResults t.events = okResults s.events + m ∧ t.phase = s.indexAfter m ∧
      t.bankCount = s.bankCount + 4 * m

/-- Two STEPs that return OK with no SETDIR between them apply the rows at NEXT(p, d) and at NEXT(NEXT(p, d), d), whose
indices differ (41_step.md R127 [derived]). -/
def Obligations.TwoSuccessfulStepsApplyDifferentRows : Prop :=
  ∀ s t u : State, exec .step s = .next t → t.lastResult = some .ok → exec .step t = .next u → u.lastResult = some .ok →
    t.phase = nextIndex s.pattern.length s.phase s.dir ∧ u.phase = nextIndex s.pattern.length t.phase s.dir ∧
    t.phase ≠ u.phase ∧
    s.pattern.rows[t.phase]?.map Lines.ofRow = some t.out ∧ s.pattern.rows[u.phase]?.map Lines.ofRow = some u.out

/-- R132: the Output Bank fails the IN3 write of the 5th STEP and every other write so far succeeds. Four STEPs return
OK; the fifth returns OUTPUT_FAULT with PHASE as before it, IN1 and IN2 at the 5th target row, IN3 UNKNOWN, IN4 at the
4th row. -/
def Obligations.FaultOnIn3OfTheFifthStep : Prop :=
  ∀ s : State, s.Ready → s.FailsAfter 18 →
    ∃ u t, execSteps 4 s = .next u ∧ okResults u.events = okResults s.events + 4 ∧
      exec .step u = .next t ∧ t.lastResult = some .outputFault ∧ t.phase = u.phase ∧
      t.out = { in1 := some (rowLevel (s.rowAfter 5) .in1), in2 := some (rowLevel (s.rowAfter 5) .in2),
                in3 := none, in4 := some (rowLevel (s.rowAfter 4) .in4) }

/-! ### STEPFOR -/

/-- A STEPFOR of `n >= 1` whose writes all return `ok` (42_step_for.md R151 [derived], R155 with D14): the whole next
state, and its index in closed form. -/
def Obligations.StepForWithAllWritesOk : Prop :=
  ∀ (n : BitVec 32) (ivl : BitVec 28) (s : State), s.Ready → 1 ≤ n.toNat → s.NextOk (4 * n.toNat) →
    exec (.stepFor n ivl) s = .next
      { s with
        phase := s.indexAfter n.toNat
        out := Lines.ofRow (s.rowAfter n.toNat)
        sfRem := 0#32
        sfIvl := 0#28
        bankCount := s.bankCount + 4 * n.toNat
        events := s.events ++ (s.stepsEvents ivl.toNat n.toNat n.toNat ++ [.evResult .ok]) } ∧
    (s.dir = .forward → s.indexAfter n.toNat = (s.phase + n.toNat) % s.pattern.length) ∧
    (s.dir = .reverse →
      s.indexAfter n.toNat = (s.phase + s.pattern.length - n.toNat % s.pattern.length) % s.pattern.length)

/-- A STEPFOR whose first failing write is that of line `k` of step `j` (42_step_for.md R152 [derived]; D8 to D10, D15):
the whole next state. -/
def Obligations.StepForWithFailingWrite : Prop :=
  ∀ (n : BitVec 32) (ivl : BitVec 28) (s : State) (j : Nat) (k : Line), s.Ready → 1 ≤ j → j ≤ n.toNat →
    s.FailsAfter (4 * (j - 1) + (k.number - 1)) →
    ∃ t, exec (.stepFor n ivl) s = .next t ∧
      t = { s with
            phase := s.indexAfter (j - 1)
            out := t.out
            sfRem := 0#32
            sfIvl := 0#28
            bankCount := s.bankCount + (4 * (j - 1) + k.number)
            events := s.events ++ (s.stepsEvents ivl.toNat n.toNat (j - 1) ++ failedRowEvents (s.rowAfter j) k ++
              [.evResult .outputFault]) } ∧
      ∀ l, t.out.get l =
        (if j = 1 then s.out else Lines.ofRow (s.rowAfter (j - 1))).failedAt (s.rowAfter j) k l

/-- The write-count law and the wait counts (42_step_for.md R151 to R153 [derived]): on OK exactly `n` completed pattern
writes, `4n` line writes and `2n - 1` waits with a time source; on OUTPUT_FAULT fewer than `n` completed ones, one failed
write, two waits for each completed step with a time source; without one no wait. -/
def Obligations.StepForWriteAndWaitCounts : Prop :=
  ∀ (n : BitVec 32) (ivl : BitVec 28) (s t : State), exec (.stepFor n ivl) s = .next t →
    ∃ new, t.events = s.events ++ new ∧
      (t.lastResult = some .ok →
        countEvents Event.completesRow new = n.toNat ∧ countEvents Event.isWrite new = 4 * n.toNat ∧
        countEvents Event.isFailedWrite new = 0 ∧
        countEvents Event.isWait new = if s.hasTs then 2 * n.toNat - 1 else 0) ∧
      (t.lastResult = some .outputFault →
        countEvents Event.completesRow new < n.toNat ∧ countEvents Event.isFailedWrite new = 1 ∧
        countEvents Event.isWait new = if s.hasTs then 2 * countEvents Event.completesRow new else 0)

/-- STEPFOR 0 performs no step: one event, no other change (42_step_for.md R154, D14). -/
def Obligations.StepForZeroOnlyAnswers : Prop :=
  ∀ (ivl : BitVec 28) (s : State), s.Inv →
    exec (.stepFor 0#32 ivl) s = .next { s with events := s.events ++ [.evResult .ok] }

/-- STEPFOR 1 issues exactly the events of STEP and ends in the same state with the same result (30_encoding.md R81
[derived]), whatever the Output Bank answers. -/
def Obligations.StepForOneIsStep : Prop :=
  ∀ (ivl : BitVec 28) (s : State), s.Inv → exec (.stepFor 1#32 ivl) s = exec .step s

/-- Without a time source the interval has no effect (42_step_for.md R155, D14). -/
def Obligations.StepForIgnoresIntervalWithoutTimeSource : Prop :=
  ∀ (n : BitVec 32) (a b : BitVec 28) (s : State), s.hasTs = false → exec (.stepFor n a) s = exec (.stepFor n b) s

/-- A full drive cycle, `n = L` with all writes `ok`, returns to the same index and applies its row (42_step_for.md R157
[derived]). -/
def Obligations.StepForFullCycleReturnsToItsPhase : Prop :=
  ∀ (n : BitVec 32) (ivl : BitVec 28) (s : State), s.Ready → n.toNat = s.pattern.length → s.NextOk (4 * n.toNat) →
    ∃ t, exec (.stepFor n ivl) s = .next t ∧ t.phase = s.phase ∧ t.lastResult = some .ok ∧
      s.pattern.rows[s.phase]?.map Lines.ofRow = some t.out

/-! ### Every command -/

/-- A command presented to the idle block always returns (20_memory.md R60; D23): the idle block is there again, and its
one EvResult is the last of the events it added. -/
def Obligations.EveryAcceptedCommandReturns : Prop :=
  ∀ (i : Instr) (s : State), s.Ready →
    ∃ t body r, exec i s = .next t ∧ t.Ready ∧ t.events = s.events ++ body ++ [.evResult r] ∧
      ∀ e ∈ body, e.isResult = false

/-- The frame of every command: the configuration, the Output Bank's script and the inbox are unchanged; BUSY is 0; only
STEPFOR touches SF_REM and SF_IVL; only SETDIR changes DIR; the Output Bank answered as many writes as there are new
EvWrite events; a line with no new EvWrite is unchanged; PHASE is unchanged unless the four writes of a row completed. -/
def Obligations.CommandFrame : Prop :=
  ∀ (i : Instr) (s t : State), exec i s = .next t →
    ∃ new, t.events = s.events ++ new ∧ SameConfiguration s t ∧ t.bankScript = s.bankScript ∧ t.inbox = s.inbox ∧
      t.busy = false ∧
      ((∀ n ivl, i ≠ .stepFor n ivl) → t.sfRem = s.sfRem ∧ t.sfIvl = s.sfIvl) ∧
      ((∀ d, i ≠ .setDir d) → t.dir = s.dir) ∧
      t.bankCount = s.bankCount + countEvents Event.isWrite new ∧
      (∀ k, (∀ v r, .evWrite k v r ∉ new) → t.out.get k = s.out.get k) ∧
      (countEvents Event.completesRow new = 0 → t.phase = s.phase)

/-- Only STEP and STEPFOR can return OUTPUT_FAULT; SETDIR always returns OK; construction cannot fail (R201). -/
def Obligations.OnlySteppingReturnsOutputFault : Prop :=
  (∀ (i : Instr) (s t : State), exec i s = .next t → t.lastResult = some .outputFault →
    i = .step ∨ ∃ n ivl, i = .stepFor n ivl) ∧
  (∀ (d : Dir) (s : State), s.Ready → ∃ t, exec (.setDir d) s = .next t ∧ t.lastResult = some .ok) ∧
  (∀ (p : Pattern) (hasTs : Bool) (stepInterval : Nat), ∃ s, constructFromRows p.rows hasTs stepInterval = .ok s)

/-- A command returns OUTPUT_FAULT exactly when a line write of its failed; the result codes (60_exceptions.md R200,
30_encoding.md R79; D4). -/
def Obligations.OutputFaultMeansAFailedWrite : Prop :=
  (∀ (i : Instr) (s t : State) (new : List Event), exec i s = .next t → t.events = s.events ++ new →
    (t.lastResult = some .outputFault ↔ ∃ e ∈ new, e.isFailedWrite = true) ∧
    (t.lastResult = some .ok ↔ ∀ e ∈ new, e.isFailedWrite = false)) ∧
  Result.ok.code = 0#1 ∧ Result.outputFault.code = 1#1

/-- At most one write of a command fails, and nothing but the result follows it: no later line, step or wait
(60_exceptions.md R206; D8, D9, D12, D15). -/
def Obligations.NothingFollowsAFailedWrite : Prop :=
  ∀ (i : Instr) (s t : State), exec i s = .next t → t.lastResult = some .outputFault →
    ∃ body k v, t.events = s.events ++ body ++ [.evWrite k v .fail, .evResult .outputFault] ∧
      ∀ e ∈ body, e.isFailedWrite = false

/-- R208: a failing step leaves PHASE and DIR exactly as before it; the lines before the failing one hold the new row, the
failing one is UNKNOWN, the later ones hold what they held. The failing line `k` is the one whose write the Output Bank
answers `fail`, the writes before it having been answered `ok`, and the events show it. The same of a STEP, and of the
step of a STEPFOR that fails, the one after the `c` steps completed. -/
def Obligations.FaultIsPreciseForPhaseAndDirection : Prop :=
  (∀ s t : State, doStep s = (.outputFault, t) → t.phase = s.phase ∧ t.dir = s.dir ∧
    ∃ k, s.FailsAfter (k.number - 1) ∧ t.events = s.events ++ failedRowEvents (targetRow s) k ∧
      ∀ j, t.out.get j =
        if j.number < k.number then some (rowLevel (targetRow s) j) else if j = k then none else s.out.get j) ∧
  (∀ s t : State, exec .step s = .next t → t.lastResult = some .outputFault → t.phase = s.phase ∧ t.dir = s.dir ∧
    ∃ k, s.FailsAfter (k.number - 1) ∧
      t.events = s.events ++ (failedRowEvents (targetRow s) k ++ [.evResult .outputFault]) ∧
      ∀ j, t.out.get j = s.out.failedAt (targetRow s) k j) ∧
  (∀ (n : BitVec 32) (ivl : BitVec 28) (s t : State), exec (.stepFor n ivl) s = .next t →
    t.lastResult = some .outputFault →
    ∃ c k, c = countEvents Event.completesRow (t.events.drop s.events.length) ∧ c < n.toNat ∧
      t.phase = s.indexAfter c ∧ t.dir = s.dir ∧ s.FailsAfter (4 * c + (k.number - 1)) ∧
      (∃ done, t.events =
        s.events ++ (done ++ failedRowEvents (s.rowAfter (c + 1)) k ++ [.evResult .outputFault])) ∧
      ∀ j, t.out.get j =
        (if c = 0 then s.out else Lines.ofRow (s.rowAfter c)).failedAt (s.rowAfter (c + 1)) k j)

/-- After OUTPUT_FAULT the block is idle and accepts any command; a STEP after a failed STEP targets the same row
(60_exceptions.md R209, 41_step.md R131 [derived]; D25). -/
def Obligations.AfterAFaultEveryCommandIsAccepted : Prop :=
  (∀ (i : Instr) (s t : State), exec i s = .next t → t.lastResult = some .outputFault →
    t.busy = false ∧ ∀ i', ∃ u, exec i' t = .next u) ∧
  (∀ s t : State, exec .step s = .next t → t.lastResult = some .outputFault →
    targetIndex t = targetIndex s ∧ targetRow t = targetRow s)

/-- A command presented while BUSY = 1 is refused (70_reset_and_hazards.md R240, D22). -/
def Obligations.CommandWhileBusyIsRefused : Prop :=
  ∀ (i : Instr) (s : State), s.busy = true → exec i s = .refused .commandWhileBusy

/-- A state whose PHASE is no position of the pattern is refused (93_implementation_defined.md I24): by every command of
the idle block, and by every step of the machine, whatever is presented and whether a command runs or not. Which refusal
is named is the model's choice where several hold (logs 10 and 11). -/
def Obligations.PhaseOutsideThePatternIsRefused : Prop :=
  (∀ (i : Instr) (s : State), s.busy = false → s.pattern.length ≤ s.phase → exec i s = .refused .phaseOutOfRange) ∧
  ∀ s : State, s.pattern.length ≤ s.phase →
    (∃ why, step s = .refused why) ∧ (s.busy = false → s.inbox = [] → step s = .refused .phaseOutOfRange)

/-- A construction after reset is refused, while a command runs or not (70_reset_and_hazards.md R231, D22). -/
def Obligations.SecondConstructionIsRefused : Prop :=
  ∀ (s : State) (hasTs : Bool) (stepInterval : Nat) (rest : List Request),
    s.inbox = .construct hasTs stepInterval :: rest →
    step s = .refused (if s.busy = true then .resetWhileBusy else .secondReset)

/-! ### The pattern ROM and the output lines -/

/-- R50: a pattern read gives `PATTERN[i]`, bit `k-1` being line IN`k`; outside the ROM it is refused; a STEP reads inside
it, whatever PHASE is. -/
def Obligations.PatternReadGivesTheRow : Prop :=
  (∀ (p : Pattern) (i : Nat) (row : Row), memRead p i = .ok row ↔ p.rows[i]? = some row) ∧
  (∀ (p : Pattern) (i : Nat), p.length ≤ i → memRead p i = .error .romIndexOutOfRange) ∧
  (∀ (row : Row) (k : Line), rowLevel row k = row.getLsbD (k.number - 1)) ∧
  (∀ s : State, memRead s.pattern (nextIndex s.pattern.length s.phase s.dir) = .ok (targetRow s))

/-- OutWrite: one line takes the level written, or UNKNOWN if the write failed; the others keep theirs; one event, one
answer, nothing else (20_memory.md R52, R53; D10, D24). -/
def Obligations.OutWriteMovesOneLine : Prop :=
  ∀ (k : Line) (v : Bool) (s : State),
    (outWrite k v s).1 = s.answerAt s.bankCount ∧
    (outWrite k v s).2.out.get k = (if s.answerAt s.bankCount = .ok then some v else none) ∧
    (∀ j, j ≠ k → (outWrite k v s).2.out.get j = s.out.get j) ∧
    (outWrite k v s).2 =
      { s with
        out := (outWrite k v s).2.out
        bankCount := s.bankCount + 1
        events := s.events ++ [.evWrite k v (s.answerAt s.bankCount)] }

/-- No step of the machine changes the pattern (00_scope.md R7) or the rest of the configuration: HAS_TS and
STEP_INTERVAL are fixed at reset (R6, 10_state.md R26, R27; D13; log 2). -/
def Obligations.ConfigurationIsImmutable : Prop :=
  ∀ s t : State, step s = .next t → SameConfiguration s t

/-- Without a time source no command waits (10_state.md R26 [derived]). -/
def Obligations.NoWaitWithoutTimeSource : Prop :=
  ∀ (i : Instr) (s t : State), s.hasTs = false → exec i s = .next t →
    ∃ new, t.events = s.events ++ new ∧ ∀ e ∈ new, e.isWait = false

/-! ### Invariants -/

/-- Every step keeps the block idle between commands, PHASE a position of the pattern (10_state.md R30 [derived]) and
SF_REM and SF_IVL 0 (R35). -/
def Obligations.StepKeepsTheIdleInvariant : Prop :=
  ∀ s t : State, s.Inv → step s = .next t → t.Inv

/-- Every step keeps every line at what the block's own writes left on it (10_state.md R24, R25; D10, D27). -/
def Obligations.StepKeepsTheLinesAsWritten : Prop :=
  ∀ s t : State, s.LinesAgree → step s = .next t → t.LinesAgree

/-- Every step keeps "index matches last-written pattern": PHASE is the index of the last row whose four line writes all
returned `ok`, and 0 if there is none (41_step.md R130 [derived]). -/
def Obligations.StepKeepsIndexMatchingLastCompletedRow : Prop :=
  ∀ s t : State, s.IndexMatches → step s = .next t → t.IndexMatches

/-- The history only grows (20_memory.md R55, D1): no event is removed, each line write the Output Bank answered is
recorded, a served command ends with its one EvResult, and with nothing presented nothing is recorded (the inbox is the
model's, log 4). -/
def Obligations.HistoryOnlyGrows : Prop :=
  ∀ s t : State, step s = .next t →
    ∃ new, t.events = s.events ++ new ∧ t.bankCount = s.bankCount + countEvents Event.isWrite new ∧
      (s.inbox = [] → new = []) ∧
      (s.inbox ≠ [] → ∃ body r, new = body ++ [.evResult r] ∧ ∀ e ∈ body, e.isResult = false)

/-- PHASE fits the register: PHASE_BITS is the least number of bits that holds every index (00_scope.md R6). -/
def Obligations.PhaseFitsItsRegister : Prop :=
  (∀ s : State, s.Inv → s.phase < 2 ^ s.pattern.phaseBits) ∧
  (∀ p : Pattern, p.length ≤ 2 ^ p.phaseBits ∧ 2 ^ (p.phaseBits - 1) < p.length)

/-! ### The step and the encoding -/

/-- A step serves the oldest request: a command whose bytes decode to `i` is `exec i` on the state without that request;
`withFetchWord` places one. -/
def Obligations.StepRunsTheDecodedCommand : Prop :=
  (∀ (s : State) (bytes : List Byte) (rest : List Request) (i : Instr),
    s.inbox = .command bytes :: rest → decodeBytes bytes = .ok i → step s = exec i { s with inbox := rest }) ∧
  (∀ (s : State) (w : Nat) (i : Instr), decodeTableWord 64 w = some i → step (s.withFetchWord 64 w) = exec i s)

/-- With nothing presented the idle block does nothing (60_exceptions.md R204; log 4); with a command in flight the
state says nothing of what follows (70_reset_and_hazards.md R246; log 10); with PHASE outside the pattern the state is
refused (93_implementation_defined.md I24; log 11: BUSY is looked at first). -/
def Obligations.NothingPresentedNothingDone : Prop :=
  ∀ s : State, s.inbox = [] →
    (s.Ready → step s = .next s) ∧ (s.busy = true → step s = .refused .commandInFlight) ∧
    (s.busy = false → s.pattern.length ≤ s.phase → step s = .refused .phaseOutOfRange)

/-- Decoding an encoded command gives it back, as a word and over the byte transport, with every operand at every value
(30_encoding.md R77 [derived]; D2, D28). -/
def Obligations.DecodeOfEncodeIsTheCommand : Prop :=
  ∀ i : Instr, decodeWord (encode i) = .ok i ∧ decodeBytes (wordBytes (encode i)) = .ok i

/-- Each word has one meaning: a word that decodes is the encoding of what it decodes to (30_encoding.md R77 [derived]). -/
def Obligations.EncodeOfDecodeIsTheWord : Prop :=
  ∀ (w : CommandWord) (i : Instr), decodeWord w = .ok i → encode i = w

/-- The illegal words are exactly those of 30_encoding.md R76 (D21), and a step refuses each. That the refusal is
`rejectedWord` in a state with BUSY 1 too is the model's choice (log 10: decoding comes before the busy check). -/
def Obligations.IllegalWordsAreRefused : Prop :=
  ∀ w : CommandWord,
    ((∃ why, decodeWord w = .error why) ↔
      (opcField w ≠ 0x1#4 ∧ opcField w ≠ 0x2#4 ∧ opcField w ≠ 0x3#4) ∨
      (opcField w = 0x1#4 ∧ w.extractLsb' 1 59 ≠ 0#59) ∨
      (opcField w = 0x2#4 ∧ w.extractLsb' 0 60 ≠ 0#60)) ∧
    ∀ (why : DecodeError) (s : State) (rest : List Request), decodeWord w = .error why →
      s.inbox = .command (wordBytes w) :: rest → step s = .refused (.rejectedWord why)

/-- A command that is no whole 64-bit unit is refused (20_memory.md R57, D21). Two clauses are the model's: more than
eight bytes are refused as well (log 9, DEDUCED), and the refusal is `rejectedWord` in a state with BUSY 1 too (log 10,
DESIGN CHOICE). -/
def Obligations.PartialWordsAreRefused : Prop :=
  ∀ (bytes : List Byte), bytes.length ≠ 8 →
    decodeBytes bytes = .error .partialWord ∧
    ∀ (s : State) (rest : List Request), s.inbox = .command bytes :: rest →
      step s = .refused (.rejectedWord .partialWord)

/-- Words written out from the field layout of 30_encoding.md R73, and one byte serialization (D28). -/
def Obligations.KnownWordsDecode : Prop :=
  decodeWord 0b0001000000000000000000000000000000000000000000000000000000000000#64 = .ok (.setDir .forward) ∧
  decodeWord 0b0001000000000000000000000000000000000000000000000000000000000001#64 = .ok (.setDir .reverse) ∧
  decodeWord 0b0010000000000000000000000000000000000000000000000000000000000000#64 = .ok .step ∧
  decodeWord 0b0011000000000000000000000000010000000000000000000000000000001010#64 = .ok (.stepFor 10#32 4#28) ∧
  decodeBytes [0x0A#8, 0x00#8, 0x00#8, 0x00#8, 0x04#8, 0x00#8, 0x00#8, 0x30#8] = .ok (.stepFor 10#32 4#28)

/-- The assembler: the words of 30_encoding.md R80 (D2), and a STEPFOR line is rejected exactly when `n` does not fit 32
bits or `interval` 28. -/
def Obligations.AssemblerWordsAndRanges : Prop :=
  assemble (.setdir .forward) = some 0x1000000000000000#64 ∧
  assemble (.setdir .reverse) = some 0x1000000000000001#64 ∧
  assemble .step = some 0x2000000000000000#64 ∧
  ∀ n interval : Nat,
    (n < 2 ^ 32 → interval < 2 ^ 28 →
      assemble (.stepfor n interval) = some (BitVec.ofNat 64 (0x3000000000000000 + interval * 2 ^ 32 + n))) ∧
    (2 ^ 32 ≤ n ∨ 2 ^ 28 ≤ interval → assemble (.stepfor n interval) = none)

/-! ### DELAY_MS -/

/-- DELAY_MS is the truncated quotient, 0 exactly above the threshold and at least 1 exactly up to it; a zero divisor is
refused (43_speed_conversion.md R180 to R182; D20). -/
def Obligations.DelayMsTruncates : Prop :=
  (∀ rpm spr : Nat, 1 ≤ rpm → 1 ≤ spr →
    delayMs rpm spr = .ok (60000 / (rpm * spr)) ∧
    (delayMs rpm spr = .ok 0 ↔ 60000 < rpm * spr) ∧
    ((∃ d, 1 ≤ d ∧ delayMs rpm spr = .ok d) ↔ rpm * spr ≤ 60000)) ∧
  (∀ n : Nat, delayMs 0 n = .error .delayZeroDivisor ∧ delayMs n 0 = .error .delayZeroDivisor) ∧
  delayMs 15 4096 = .ok 0 ∧ delayMs 100 2048 = .ok 0

/-! ### Inside a running command -/

/-- The event-by-event view and `exec` agree: within a bounded number of events the accepted command has returned and left
exactly `exec`'s next state, and BUSY was 1 from its acceptance until then (10_state.md R35, 20_memory.md R59; log 17). -/
def Obligations.EventByEventRunEndsInExec : Prop :=
  ∀ (i : Instr) (s : State), s.Ready →
    ∃ m, 1 ≤ m ∧ m ≤ eventBound i ∧
      ((launch i s).run m).pos = none ∧ exec i s = .next ((launch i s).run m).st ∧
      ∀ j, j < m → ((launch i s).run j).pos ≠ none ∧ ((launch i s).run j).st.busy = true

/-- A running command issues one event at a time and ends with its EvResult (20_memory.md R59; log 17). -/
def Obligations.OneEventAtATime : Prop :=
  ∀ f : Flight, f.pos ≠ none →
    ∃ e, f.advance.st.events = f.st.events ++ [e] ∧ (e.isResult = true ↔ f.advance.pos = none)

/-- Nothing presented while a command runs is accepted, at any event of it: it cannot be joined or cancelled
(42_step_for.md R156, 60_exceptions.md R205, 70_reset_and_hazards.md R231, R240; D22). The two views refuse alike
(log 17), and a bad word is refused as such although BUSY is 1, the model's choice (log 10). -/
def Obligations.RunningCommandAcceptsNothing : Prop :=
  ∀ (i : Instr) (s : State) (j : Nat) (q : Request), ((launch i s).run j).pos ≠ none →
    ∃ why, ((launch i s).run j).offer q = .refused why ∧ serve q ((launch i s).run j).st = .refused why ∧
      (∀ hasTs stepInterval, q = .construct hasTs stepInterval → why = .resetWhileBusy) ∧
      (∀ bytes i', q = .command bytes → decodeBytes bytes = .ok i' → why = .commandWhileBusy) ∧
      (∀ bytes e, q = .command bytes → decodeBytes bytes = .error e → why = .rejectedWord e)
end

