-- ==== Sys2Proof/Laws/Encoding.lean ====
section
/-! SUPPORT. Laws/Encoding.lean: the command word as a number: what each field is of it, what the encoder makes, what the
bytes spell. -/
namespace Sys2Proof

/-- OPC as a number. -/
theorem opcField_toNat (w : CommandWord) : (opcField w).toNat = w.toNat / 2 ^ 60 := by
  have := w.isLt
  simp [opcField, Nat.shiftRight_eq_div_pow]; omega

/-- OPC is `k`, said of the word. -/
theorem opcField_eq_iff (w : CommandWord) {k : Nat} (hk : k < 16) : opcField w = BitVec.ofNat 4 k ↔ w.toNat / 2 ^ 60 = k := by
  rw [← BitVec.toNat_inj, opcField_toNat, BitVec.toNat_ofNat, Nat.mod_eq_of_lt hk]

/-- `N` as a number. -/
theorem nField_toNat (w : CommandWord) : (nField w).toNat = w.toNat % 2 ^ 32 := by
  simp [nField]

/-- `IVL` as a number. -/
theorem ivlField_toNat (w : CommandWord) : (ivlField w).toNat = w.toNat / 2 ^ 32 % 2 ^ 28 := by
  simp [ivlField, Nat.shiftRight_eq_div_pow]

/-- A STEPFOR's word as a number: the three fields side by side. -/
theorem encode_stepFor_toNat (n : BitVec 32) (ivl : BitVec 28) :
    (encode (.stepFor n ivl)).toNat = 3 * 2 ^ 60 + ivl.toNat * 2 ^ 32 + n.toNat := by
  have hn := n.isLt
  have hi := ivl.isLt
  have e1 : (n.setWidth 64).toNat = n.toNat := by simp; omega
  have e2 : (ivl.setWidth 64 <<< 32).toNat = ivl.toNat <<< 32 := by simp [Nat.shiftLeft_eq]; omega
  have e3 : (0x3000000000000000#64).toNat = 3 <<< 60 := by decide
  simp only [encode, BitVec.toNat_or]
  rw [e1, e2, e3, Nat.or_assoc, ← Nat.shiftLeft_add_eq_or_of_lt hn,
    ← Nat.shiftLeft_add_eq_or_of_lt (by rw [Nat.shiftLeft_eq]; omega)]
  simp only [Nat.shiftLeft_eq]; omega

/-- The bytes of a word spell the word. -/
theorem leValue_wordBytes (w : CommandWord) : leValue (wordBytes w) = w.toNat := by
  have := w.isLt
  simp [wordBytes, leBytes, leValue]; omega

/-- Decoding the eight bytes of a word is decoding the word. -/
theorem decodeBytes_wordBytes (w : CommandWord) : decodeBytes (wordBytes w) = decodeWord w := by
  have hlen : (wordBytes w).length = 8 := rfl
  rw [decodeBytes, if_pos hlen, leValue_wordBytes]; simp

end Sys2Proof
end

