-- ==== Sys2Proof/Laws/State.lean ====
section
/-! SUPPORT. Laws/State.lean: what each named update leaves in each field of State, so that no proof unfolds one. -/
namespace Sys2Proof.Machine

/-! record e (R55). -/
@[simp] theorem record_phase (e : Event) (s : State) : (record e s).phase = s.phase := rfl
@[simp] theorem record_dir (e : Event) (s : State) : (record e s).dir = s.dir := rfl
@[simp] theorem record_out (e : Event) (s : State) : (record e s).out = s.out := rfl
@[simp] theorem record_hasTs (e : Event) (s : State) : (record e s).hasTs = s.hasTs := rfl
@[simp] theorem record_stepInterval (e : Event) (s : State) : (record e s).stepInterval = s.stepInterval := rfl
@[simp] theorem record_pattern (e : Event) (s : State) : (record e s).pattern = s.pattern := rfl
@[simp] theorem record_busy (e : Event) (s : State) : (record e s).busy = s.busy := rfl
@[simp] theorem record_sfRem (e : Event) (s : State) : (record e s).sfRem = s.sfRem := rfl
@[simp] theorem record_sfIvl (e : Event) (s : State) : (record e s).sfIvl = s.sfIvl := rfl
@[simp] theorem record_events (e : Event) (s : State) : (record e s).events = s.events ++ [e] := rfl
@[simp] theorem record_bankScript (e : Event) (s : State) : (record e s).bankScript = s.bankScript := rfl
@[simp] theorem record_bankCount (e : Event) (s : State) : (record e s).bankCount = s.bankCount := rfl
@[simp] theorem record_inbox (e : Event) (s : State) : (record e s).inbox = s.inbox := rfl

/-! Wait (R221). -/
@[simp] theorem wait_phase (t : Nat) (s : State) : (wait t s).phase = s.phase := rfl
@[simp] theorem wait_dir (t : Nat) (s : State) : (wait t s).dir = s.dir := rfl
@[simp] theorem wait_out (t : Nat) (s : State) : (wait t s).out = s.out := rfl
@[simp] theorem wait_hasTs (t : Nat) (s : State) : (wait t s).hasTs = s.hasTs := rfl
@[simp] theorem wait_stepInterval (t : Nat) (s : State) : (wait t s).stepInterval = s.stepInterval := rfl
@[simp] theorem wait_pattern (t : Nat) (s : State) : (wait t s).pattern = s.pattern := rfl
@[simp] theorem wait_busy (t : Nat) (s : State) : (wait t s).busy = s.busy := rfl
@[simp] theorem wait_sfRem (t : Nat) (s : State) : (wait t s).sfRem = s.sfRem := rfl
@[simp] theorem wait_sfIvl (t : Nat) (s : State) : (wait t s).sfIvl = s.sfIvl := rfl
@[simp] theorem wait_events (t : Nat) (s : State) : (wait t s).events = s.events ++ [.evWait t] := rfl
@[simp] theorem wait_bankScript (t : Nat) (s : State) : (wait t s).bankScript = s.bankScript := rfl
@[simp] theorem wait_bankCount (t : Nat) (s : State) : (wait t s).bankCount = s.bankCount := rfl
@[simp] theorem wait_inbox (t : Nat) (s : State) : (wait t s).inbox = s.inbox := rfl

/-! BUSY <- 1. -/
@[simp] theorem startCommand_phase (s : State) : (startCommand s).phase = s.phase := rfl
@[simp] theorem startCommand_dir (s : State) : (startCommand s).dir = s.dir := rfl
@[simp] theorem startCommand_out (s : State) : (startCommand s).out = s.out := rfl
@[simp] theorem startCommand_hasTs (s : State) : (startCommand s).hasTs = s.hasTs := rfl
@[simp] theorem startCommand_stepInterval (s : State) : (startCommand s).stepInterval = s.stepInterval := rfl
@[simp] theorem startCommand_pattern (s : State) : (startCommand s).pattern = s.pattern := rfl
@[simp] theorem startCommand_busy (s : State) : (startCommand s).busy = true := rfl
@[simp] theorem startCommand_sfRem (s : State) : (startCommand s).sfRem = s.sfRem := rfl
@[simp] theorem startCommand_sfIvl (s : State) : (startCommand s).sfIvl = s.sfIvl := rfl
@[simp] theorem startCommand_events (s : State) : (startCommand s).events = s.events := rfl
@[simp] theorem startCommand_bankScript (s : State) : (startCommand s).bankScript = s.bankScript := rfl
@[simp] theorem startCommand_bankCount (s : State) : (startCommand s).bankCount = s.bankCount := rfl
@[simp] theorem startCommand_inbox (s : State) : (startCommand s).inbox = s.inbox := rfl

/-! the end of a command. -/
@[simp] theorem endCommand_phase (r : Result) (s : State) : (endCommand r s).phase = s.phase := rfl
@[simp] theorem endCommand_dir (r : Result) (s : State) : (endCommand r s).dir = s.dir := rfl
@[simp] theorem endCommand_out (r : Result) (s : State) : (endCommand r s).out = s.out := rfl
@[simp] theorem endCommand_hasTs (r : Result) (s : State) : (endCommand r s).hasTs = s.hasTs := rfl
@[simp] theorem endCommand_stepInterval (r : Result) (s : State) : (endCommand r s).stepInterval = s.stepInterval := rfl
@[simp] theorem endCommand_pattern (r : Result) (s : State) : (endCommand r s).pattern = s.pattern := rfl
@[simp] theorem endCommand_busy (r : Result) (s : State) : (endCommand r s).busy = false := rfl
@[simp] theorem endCommand_sfRem (r : Result) (s : State) : (endCommand r s).sfRem = s.sfRem := rfl
@[simp] theorem endCommand_sfIvl (r : Result) (s : State) : (endCommand r s).sfIvl = s.sfIvl := rfl
@[simp] theorem endCommand_events (r : Result) (s : State) : (endCommand r s).events = s.events ++ [.evResult r] := rfl
@[simp] theorem endCommand_bankScript (r : Result) (s : State) : (endCommand r s).bankScript = s.bankScript := rfl
@[simp] theorem endCommand_bankCount (r : Result) (s : State) : (endCommand r s).bankCount = s.bankCount := rfl
@[simp] theorem endCommand_inbox (r : Result) (s : State) : (endCommand r s).inbox = s.inbox := rfl

/-! SF_REM and SF_IVL loaded. -/
@[simp] theorem loadStepFor_phase (n : BitVec 32) (ivl : BitVec 28) (s : State) : (loadStepFor n ivl s).phase = s.phase := rfl
@[simp] theorem loadStepFor_dir (n : BitVec 32) (ivl : BitVec 28) (s : State) : (loadStepFor n ivl s).dir = s.dir := rfl
@[simp] theorem loadStepFor_out (n : BitVec 32) (ivl : BitVec 28) (s : State) : (loadStepFor n ivl s).out = s.out := rfl
@[simp] theorem loadStepFor_hasTs (n : BitVec 32) (ivl : BitVec 28) (s : State) : (loadStepFor n ivl s).hasTs = s.hasTs := rfl
@[simp] theorem loadStepFor_stepInterval (n : BitVec 32) (ivl : BitVec 28) (s : State) : (loadStepFor n ivl s).stepInterval = s.stepInterval := rfl
@[simp] theorem loadStepFor_pattern (n : BitVec 32) (ivl : BitVec 28) (s : State) : (loadStepFor n ivl s).pattern = s.pattern := rfl
@[simp] theorem loadStepFor_busy (n : BitVec 32) (ivl : BitVec 28) (s : State) : (loadStepFor n ivl s).busy = s.busy := rfl
@[simp] theorem loadStepFor_sfRem (n : BitVec 32) (ivl : BitVec 28) (s : State) : (loadStepFor n ivl s).sfRem = n := rfl
@[simp] theorem loadStepFor_sfIvl (n : BitVec 32) (ivl : BitVec 28) (s : State) : (loadStepFor n ivl s).sfIvl = ivl := rfl
@[simp] theorem loadStepFor_events (n : BitVec 32) (ivl : BitVec 28) (s : State) : (loadStepFor n ivl s).events = s.events := rfl
@[simp] theorem loadStepFor_bankScript (n : BitVec 32) (ivl : BitVec 28) (s : State) : (loadStepFor n ivl s).bankScript = s.bankScript := rfl
@[simp] theorem loadStepFor_bankCount (n : BitVec 32) (ivl : BitVec 28) (s : State) : (loadStepFor n ivl s).bankCount = s.bankCount := rfl
@[simp] theorem loadStepFor_inbox (n : BitVec 32) (ivl : BitVec 28) (s : State) : (loadStepFor n ivl s).inbox = s.inbox := rfl

/-! SF_REM and SF_IVL cleared. -/
@[simp] theorem clearStepFor_phase (s : State) : (clearStepFor s).phase = s.phase := rfl
@[simp] theorem clearStepFor_dir (s : State) : (clearStepFor s).dir = s.dir := rfl
@[simp] theorem clearStepFor_out (s : State) : (clearStepFor s).out = s.out := rfl
@[simp] theorem clearStepFor_hasTs (s : State) : (clearStepFor s).hasTs = s.hasTs := rfl
@[simp] theorem clearStepFor_stepInterval (s : State) : (clearStepFor s).stepInterval = s.stepInterval := rfl
@[simp] theorem clearStepFor_pattern (s : State) : (clearStepFor s).pattern = s.pattern := rfl
@[simp] theorem clearStepFor_busy (s : State) : (clearStepFor s).busy = s.busy := rfl
@[simp] theorem clearStepFor_sfRem (s : State) : (clearStepFor s).sfRem = 0#32 := rfl
@[simp] theorem clearStepFor_sfIvl (s : State) : (clearStepFor s).sfIvl = 0#28 := rfl
@[simp] theorem clearStepFor_events (s : State) : (clearStepFor s).events = s.events := rfl
@[simp] theorem clearStepFor_bankScript (s : State) : (clearStepFor s).bankScript = s.bankScript := rfl
@[simp] theorem clearStepFor_bankCount (s : State) : (clearStepFor s).bankCount = s.bankCount := rfl
@[simp] theorem clearStepFor_inbox (s : State) : (clearStepFor s).inbox = s.inbox := rfl

/-! OutWrite (R52). -/
@[simp] theorem outWrite_phase (k : Line) (v : Bool) (s : State) : (outWrite k v s).2.phase = s.phase := rfl
@[simp] theorem outWrite_dir (k : Line) (v : Bool) (s : State) : (outWrite k v s).2.dir = s.dir := rfl
@[simp] theorem outWrite_out (k : Line) (v : Bool) (s : State) : (outWrite k v s).2.out = s.out.set k (levelAfter v (s.answerAt s.bankCount)) := rfl
@[simp] theorem outWrite_hasTs (k : Line) (v : Bool) (s : State) : (outWrite k v s).2.hasTs = s.hasTs := rfl
@[simp] theorem outWrite_stepInterval (k : Line) (v : Bool) (s : State) : (outWrite k v s).2.stepInterval = s.stepInterval := rfl
@[simp] theorem outWrite_pattern (k : Line) (v : Bool) (s : State) : (outWrite k v s).2.pattern = s.pattern := rfl
@[simp] theorem outWrite_busy (k : Line) (v : Bool) (s : State) : (outWrite k v s).2.busy = s.busy := rfl
@[simp] theorem outWrite_sfRem (k : Line) (v : Bool) (s : State) : (outWrite k v s).2.sfRem = s.sfRem := rfl
@[simp] theorem outWrite_sfIvl (k : Line) (v : Bool) (s : State) : (outWrite k v s).2.sfIvl = s.sfIvl := rfl
@[simp] theorem outWrite_events (k : Line) (v : Bool) (s : State) : (outWrite k v s).2.events = s.events ++ [.evWrite k v (s.answerAt s.bankCount)] := rfl
@[simp] theorem outWrite_bankScript (k : Line) (v : Bool) (s : State) : (outWrite k v s).2.bankScript = s.bankScript := rfl
@[simp] theorem outWrite_bankCount (k : Line) (v : Bool) (s : State) : (outWrite k v s).2.bankCount = s.bankCount + 1 := rfl
@[simp] theorem outWrite_inbox (k : Line) (v : Bool) (s : State) : (outWrite k v s).2.inbox = s.inbox := rfl

/-- OutWrite's answer is the Output Bank's next one. -/
@[simp] theorem outWrite_answer (k : Line) (v : Bool) (s : State) : (outWrite k v s).1 = s.answerAt s.bankCount := rfl

/-! A wait that happens only with a time source. -/
@[simp] theorem waitIfTimed_phase (t : Nat) (s : State) : (waitIfTimed t s).phase = s.phase := by
  unfold waitIfTimed; split <;> rfl
@[simp] theorem waitIfTimed_dir (t : Nat) (s : State) : (waitIfTimed t s).dir = s.dir := by
  unfold waitIfTimed; split <;> rfl
@[simp] theorem waitIfTimed_out (t : Nat) (s : State) : (waitIfTimed t s).out = s.out := by
  unfold waitIfTimed; split <;> rfl
@[simp] theorem waitIfTimed_hasTs (t : Nat) (s : State) : (waitIfTimed t s).hasTs = s.hasTs := by
  unfold waitIfTimed; split <;> rfl
@[simp] theorem waitIfTimed_stepInterval (t : Nat) (s : State) : (waitIfTimed t s).stepInterval = s.stepInterval := by
  unfold waitIfTimed; split <;> rfl
@[simp] theorem waitIfTimed_pattern (t : Nat) (s : State) : (waitIfTimed t s).pattern = s.pattern := by
  unfold waitIfTimed; split <;> rfl
@[simp] theorem waitIfTimed_busy (t : Nat) (s : State) : (waitIfTimed t s).busy = s.busy := by
  unfold waitIfTimed; split <;> rfl
@[simp] theorem waitIfTimed_sfRem (t : Nat) (s : State) : (waitIfTimed t s).sfRem = s.sfRem := by
  unfold waitIfTimed; split <;> rfl
@[simp] theorem waitIfTimed_sfIvl (t : Nat) (s : State) : (waitIfTimed t s).sfIvl = s.sfIvl := by
  unfold waitIfTimed; split <;> rfl
@[simp] theorem waitIfTimed_bankScript (t : Nat) (s : State) : (waitIfTimed t s).bankScript = s.bankScript := by
  unfold waitIfTimed; split <;> rfl
@[simp] theorem waitIfTimed_bankCount (t : Nat) (s : State) : (waitIfTimed t s).bankCount = s.bankCount := by
  unfold waitIfTimed; split <;> rfl
@[simp] theorem waitIfTimed_inbox (t : Nat) (s : State) : (waitIfTimed t s).inbox = s.inbox := by
  unfold waitIfTimed; split <;> rfl
@[simp] theorem waitIfTimed_events (t : Nat) (s : State) :
    (waitIfTimed t s).events = s.events ++ (if s.hasTs then [.evWait t] else []) := by
  unfold waitIfTimed; split <;> simp

/-- The Output Bank's answers depend on its script alone. -/
theorem answerAt_congr {s t : State} (h : t.bankScript = s.bankScript) (i : Nat) : t.answerAt i = s.answerAt i := by
  simp [State.answerAt, h]

/-- One line's write read back. -/
@[simp] theorem Lines.get_set_self (o : Lines) (k : Line) (v : Option Bool) : (o.set k v).get k = v := by
  cases k <;> rfl

/-- Another line's write leaves a line alone. -/
theorem Lines.get_set_of_ne (o : Lines) {j k : Line} (v : Option Bool) (h : j ≠ k) : (o.set k v).get j = o.get j := by
  cases j <;> cases k <;> first | rfl | exact absurd rfl h

/-- Four lines that agree are equal. -/
theorem Lines.ext_get {o o' : Lines} (h : ∀ k, o.get k = o'.get k) : o = o' := by
  cases o; cases o'
  have h1 := h .in1; have h2 := h .in2; have h3 := h .in3; have h4 := h .in4
  simp only [Lines.get] at h1 h2 h3 h4
  subst h1 h2 h3 h4; rfl

end Sys2Proof.Machine
end

