-- ==== Sys2Proof/Laws/Stepping.lean ====
section
/-! SUPPORT. Laws/Stepping.lean: everything a step, a STEPFOR loop and an accepted command can do, said once each; the
proofs about commands cite these and unfold none of them. -/
namespace Sys2Proof.Machine

/-- What the Output Bank does to the four writes of a step: all answered `ok`, or a first failure at some line. -/
theorem nextOk_or_fails (s : State) : s.NextOk 4 ∨ ∃ k : Line, s.FailsAfter (k.number - 1) := by
  cases h0 : s.answerAt (s.bankCount + 0) with
  | fail => exact .inr ⟨.in1, by simp [Line.number, State.NextOk], h0⟩
  | ok =>
    cases h1 : s.answerAt (s.bankCount + 1) with
    | fail =>
      refine .inr ⟨.in2, fun j hj => ?_, h1⟩
      obtain rfl : j = 0 := by simp [Line.number] at hj; omega
      exact h0
    | ok =>
      cases h2 : s.answerAt (s.bankCount + 2) with
      | fail =>
        refine .inr ⟨.in3, fun j hj => ?_, h2⟩
        have : j = 0 ∨ j = 1 := by simp [Line.number] at hj; omega
        rcases this with rfl | rfl <;> assumption
      | ok =>
        cases h3 : s.answerAt (s.bankCount + 3) with
        | fail =>
          refine .inr ⟨.in4, fun j hj => ?_, h3⟩
          have : j = 0 ∨ j = 1 ∨ j = 2 := by simp [Line.number] at hj; omega
          rcases this with rfl | rfl | rfl <;> assumption
        | ok =>
          refine .inl fun j hj => ?_
          have : j = 0 ∨ j = 1 ∨ j = 2 ∨ j = 3 := by omega
          rcases this with rfl | rfl | rfl | rfl <;> assumption

/-- A line write answered `ok`. -/
theorem outWrite_ok {s : State} (k : Line) (v : Bool) (h : s.answerAt s.bankCount = .ok) :
    outWrite k v s = (.ok, { s with out := s.out.set k (some v), bankCount := s.bankCount + 1,
                                    events := s.events ++ [.evWrite k v .ok] }) := by
  simp [outWrite, h, record, levelAfter]

/-- A line write answered `fail`. -/
theorem outWrite_fail {s : State} (k : Line) (v : Bool) (h : s.answerAt s.bankCount = .fail) :
    outWrite k v s = (.fail, { s with out := s.out.set k none, bankCount := s.bankCount + 1,
                                      events := s.events ++ [.evWrite k v .fail] }) := by
  simp [outWrite, h, record, levelAfter]

/-- One line of a row written `ok`: the rest of the row follows. -/
theorem writeLines_cons_ok {s : State} (row : Row) (k : Line) (ks : List Line) (h : s.answerAt s.bankCount = .ok) :
    writeLines row (k :: ks) s =
      writeLines row ks { s with out := s.out.set k (some (rowLevel row k)), bankCount := s.bankCount + 1,
                                 events := s.events ++ [.evWrite k (rowLevel row k) .ok] } := by
  simp only [writeLines, outWrite_ok k _ h]

/-- One line of a row whose write fails: the row ends there. -/
theorem writeLines_cons_fail {s : State} (row : Row) (k : Line) (ks : List Line)
    (h : s.answerAt s.bankCount = .fail) :
    writeLines row (k :: ks) s =
      (.outputFault, { s with out := s.out.set k none, bankCount := s.bankCount + 1,
                              events := s.events ++ [.evWrite k (rowLevel row k) .fail] }) := by
  simp only [writeLines, outWrite_fail k _ h]

/-- A step whose four writes are answered `ok`. -/
theorem doStep_ok {s : State} (h : s.NextOk 4) :
    doStep s = (.ok, { s with
      phase := targetIndex s
      out := Lines.ofRow (targetRow s)
      bankCount := s.bankCount + 4
      events := s.events ++ (rowEvents (targetRow s) ++ waitEvents s.hasTs s.stepInterval) }) := by
  have h0 := h 0 (by omega); have h1 := h 1 (by omega); have h2 := h 2 (by omega); have h3 := h 3 (by omega)
  simp only [State.answerAt] at h0 h1 h2 h3
  have hw : writeLines (targetRow s) Line.all s = (.ok, { s with
      out := Lines.ofRow (targetRow s), bankCount := s.bankCount + 4,
      events := s.events ++ rowEvents (targetRow s) }) := by
    rw [Line.all, writeLines_cons_ok, writeLines_cons_ok, writeLines_cons_ok, writeLines_cons_ok]
    · simp [writeLines, Lines.set, Lines.ofRow, rowEvents, Line.all]
    · exact h3
    · exact h2
    · exact h1
    · exact h0
  simp only [doStep, hw]
  cases hts : s.hasTs <;> simp [waitIfTimed, wait, record, waitEvents]

/-- A step whose first failing write is that of line `k`. -/
theorem doStep_fail {s : State} {k : Line} (h : s.FailsAfter (k.number - 1)) :
    ∃ o : Lines, doStep s = (.outputFault, { s with
        out := o
        bankCount := s.bankCount + k.number
        events := s.events ++ failedRowEvents (targetRow s) k }) ∧
      ∀ j, o.get j = s.out.failedAt (targetRow s) k j := by
  obtain ⟨ho, hf⟩ := h
  simp only [State.NextOk, State.answerAt] at ho hf
  cases k <;> simp only [Line.number] at ho hf ⊢
  · refine ⟨s.out.set .in1 none, ?_, fun j => by cases j <;> rfl⟩
    simp only [doStep, Line.all, writeLines_cons_fail (s := s) _ _ _ hf]
    rfl
  · refine ⟨(s.out.set .in1 (some (rowLevel (targetRow s) .in1))).set .in2 none, ?_, fun j => by cases j <;> rfl⟩
    have h0 := ho 0 (by omega)
    simp only [doStep, Line.all, writeLines_cons_ok (s := s) _ _ _ h0]
    rw [writeLines_cons_fail]
    · simp [failedRowEvents, rowEvents, Line.all, Line.number]
    · exact hf
  · refine ⟨((s.out.set .in1 (some (rowLevel (targetRow s) .in1))).set .in2
      (some (rowLevel (targetRow s) .in2))).set .in3 none, ?_, fun j => by cases j <;> rfl⟩
    have h0 := ho 0 (by omega); have h1 := ho 1 (by omega)
    simp only [doStep, Line.all, writeLines_cons_ok (s := s) _ _ _ h0]
    rw [writeLines_cons_ok, writeLines_cons_fail]
    · simp [failedRowEvents, rowEvents, Line.all, Line.number]
    · exact hf
    · exact h1
  · refine ⟨(((s.out.set .in1 (some (rowLevel (targetRow s) .in1))).set .in2
      (some (rowLevel (targetRow s) .in2))).set .in3 (some (rowLevel (targetRow s) .in3))).set .in4 none, ?_,
      fun j => by cases j <;> rfl⟩
    have h0 := ho 0 (by omega); have h1 := ho 1 (by omega); have h2 := ho 2 (by omega)
    simp only [doStep, Line.all, writeLines_cons_ok (s := s) _ _ _ h0]
    rw [writeLines_cons_ok, writeLines_cons_ok, writeLines_cons_fail]
    · simp [failedRowEvents, rowEvents, Line.all, Line.number]
    · exact hf
    · exact h2
    · exact h1

/-- A command that ends in a next state was accepted and ran its body. -/
theorem accept_next {s t : State} {body : State → State} (h : accept s body = .next t) :
    s.Ready ∧ t = body (startCommand s) := by
  unfold accept at h
  split at h
  · cases h
  · split at h
    · cases h; exact ⟨⟨by simpa using ‹¬s.busy = true›, ‹_›⟩, rfl⟩
    · cases h

/-- A ready block accepts. -/
theorem accept_ready {s : State} (h : s.Ready) (body : State → State) :
    accept s body = .next (body (startCommand s)) := by
  simp [accept, h.1, h.2]

/-- The state after `j` successful steps of a STEPFOR that began with SF_REM = `n`, before its result: all `j` counted and
each wait issued. -/
def State.afterSteps (s : State) (n j : Nat) : State :=
  { s with
    phase := s.indexAfter j
    out := if j = 0 then s.out else Lines.ofRow (s.rowAfter j)
    sfRem := BitVec.ofNat 32 (n - j)
    bankCount := s.bankCount + 4 * j
    events := s.events ++ s.stepsEvents (intervalUnits s.sfIvl) n j }

/-- After `j` steps, the next target index and row. -/
theorem targetIndex_afterSteps (s : State) (n j : Nat) : targetIndex (s.afterSteps n j) = s.indexAfter (j + 1) := rfl

/-- An index after at least one step lies in the pattern. -/
theorem State.indexAfter_succ_lt (s : State) (j : Nat) : s.indexAfter (j + 1) < s.pattern.length :=
  nextIndex_lt s.pattern.two_le_length _ _

/-- The row of step `j + 1` is the target row after `j` steps. -/
theorem targetRow_afterSteps (s : State) (n j : Nat) : targetRow (s.afterSteps n j) = s.rowAfter (j + 1) := by
  have h := s.indexAfter_succ_lt j
  simp only [targetRow, Pattern.row, State.rowAfter, targetIndex_afterSteps]
  rw [List.getD_eq_getElem?_getD, List.getElem?_eq_getElem h]
  rfl

/-- The same for a step on its own. -/
theorem targetRow_eq_rowAfter (s : State) : targetRow s = s.rowAfter 1 := by
  have h := s.indexAfter_succ_lt 0
  simp only [targetRow, Pattern.row, State.rowAfter]
  rw [List.getD_eq_getElem?_getD, List.getElem?_eq_getElem h]
  rfl

/-- One more successful step of the loop. -/
theorem stepForLoop_succ_ok {s : State} {n j : Nat} (hn : n < 2 ^ 32) (hj : j < n)
    (hok : (s.afterSteps n j).NextOk 4) (fuel : Nat) :
    stepForLoop (fuel + 1) (s.afterSteps n j) = stepForLoop fuel (s.afterSteps n (j + 1)) := by
  have hrem : (s.afterSteps n j).sfRem ≠ 0#32 := by
    simp only [State.afterSteps, ne_eq]
    intro h
    have := congrArg BitVec.toNat h
    simp at this
    omega
  conv_lhs => unfold stepForLoop
  rw [if_neg hrem, doStep_ok hok]
  simp only
  congr 1
  have hsub : BitVec.ofNat 32 (n - j) - 1#32 = BitVec.ofNat 32 (n - (j + 1)) := by
    apply BitVec.eq_of_toNat_eq
    simp
    omega
  have hlast : (BitVec.ofNat 32 (n - (j + 1)) = 0#32) ↔ j + 1 = n := by
    constructor
    · intro h
      have := congrArg BitVec.toNat h
      simp at this
      omega
    · rintro rfl; simp
  have hev : s.stepsEvents (intervalUnits s.sfIvl) n (j + 1) = s.stepsEvents (intervalUnits s.sfIvl) n j ++
      s.countedStepEvents (intervalUnits s.sfIvl) (j + 1) (j + 1 == n) := by
    simp [State.stepsEvents, List.range_succ]
  unfold afterCountedStep
  rw [targetRow_afterSteps, targetIndex_afterSteps]
  simp only [State.afterSteps, hsub, hlast]
  by_cases hl : j + 1 = n
  · subst hl
    simp [hev, State.countedStepEvents]
    omega
  · cases hts : s.hasTs <;> simp [hl, hev, State.countedStepEvents, waitIfTimed, wait, record, waitEvents, hts] <;> omega

/-- The answers seen after `j` successful steps. -/
theorem answerAt_afterSteps (s : State) (n j i : Nat) :
    (s.afterSteps n j).answerAt ((s.afterSteps n j).bankCount + i) = s.answerAt (s.bankCount + (4 * j + i)) := by
  simp [State.afterSteps, State.answerAt, Nat.add_assoc]

/-- The first `j` steps of the loop, when their writes are all answered `ok`. -/
theorem stepForLoop_prefix {s : State} {n : Nat} (hn : n < 2 ^ 32) :
    ∀ j, j ≤ n → s.NextOk (4 * j) → ∀ fuel,
      stepForLoop (fuel + j) (s.afterSteps n 0) = stepForLoop fuel (s.afterSteps n j) := by
  intro j
  induction j with
  | zero => intros; rfl
  | succ j ih =>
    intro hj hok fuel
    have := ih (by omega) (fun i hi => hok i (by omega)) (fuel + 1)
    rw [show fuel + (j + 1) = fuel + 1 + j by omega, this]
    refine stepForLoop_succ_ok hn (by omega) (fun i hi => ?_) fuel
    rw [answerAt_afterSteps]
    exact hok _ (by omega)

/-- A loaded STEPFOR has done no step yet. -/
theorem afterSteps_zero (s : State) : s.afterSteps s.sfRem.toNat 0 = s := by
  simp [State.afterSteps, State.indexAfter, State.stepsEvents]

/-- All `n` steps of the loop succeed. -/
theorem stepForLoop_ok {s : State} (h : s.NextOk (4 * s.sfRem.toNat)) :
    stepForLoop s.sfRem.toNat s = (.ok, s.afterSteps s.sfRem.toNat s.sfRem.toNat) := by
  have := stepForLoop_prefix (s := s) (n := s.sfRem.toNat) s.sfRem.isLt s.sfRem.toNat le_rfl h 0
  rw [Nat.zero_add, afterSteps_zero] at this
  simpa [stepForLoop] using this

/-- The loop stops at its first failing step. -/
theorem stepForLoop_fail {s : State} {j : Nat} {k : Line} (hj : j < s.sfRem.toNat)
    (h : s.FailsAfter (4 * j + (k.number - 1))) :
    ∃ o : Lines, stepForLoop s.sfRem.toNat s = (.outputFault, { s.afterSteps s.sfRem.toNat j with
        out := o
        bankCount := s.bankCount + (4 * j + k.number)
        events := (s.afterSteps s.sfRem.toNat j).events ++ failedRowEvents (s.rowAfter (j + 1)) k }) ∧
      ∀ l, o.get l = (s.afterSteps s.sfRem.toNat j).out.failedAt (s.rowAfter (j + 1)) k l := by
  have hpre := stepForLoop_prefix (s := s) (n := s.sfRem.toNat) s.sfRem.isLt j hj.le
    (fun i hi => h.1 i (by omega)) (s.sfRem.toNat - j)
  rw [Nat.sub_add_cancel hj.le, afterSteps_zero] at hpre
  have hf : (s.afterSteps s.sfRem.toNat j).FailsAfter (k.number - 1) := by
    refine ⟨fun i hi => ?_, ?_⟩
    · rw [answerAt_afterSteps]; exact h.1 _ (by omega)
    · rw [answerAt_afterSteps]; exact h.2
  obtain ⟨o, ho, hget⟩ := doStep_fail hf
  have hrem : (s.afterSteps s.sfRem.toNat j).sfRem ≠ 0#32 := by
    intro h
    have := congrArg BitVec.toNat h
    have := s.sfRem.isLt
    simp [State.afterSteps] at *
    omega
  obtain ⟨f, hfuel⟩ : ∃ f, s.sfRem.toNat - j = f + 1 := ⟨s.sfRem.toNat - j - 1, by omega⟩
  rw [targetRow_afterSteps] at ho hget
  refine ⟨o, ?_, hget⟩
  rw [hpre, hfuel]
  unfold stepForLoop
  rw [if_neg hrem, ho]
  simp [State.afterSteps, Nat.add_assoc]

/-- What the Output Bank does to the writes of `n` steps: all `ok`, or a first failure at some line of some step. -/
theorem nextOk_or_fails_steps (s : State) (n : Nat) :
    s.NextOk (4 * n) ∨ ∃ j k, j < n ∧ s.FailsAfter (4 * j + ((k : Line).number - 1)) := by
  induction n with
  | zero => exact .inl (fun j hj => by omega)
  | succ n ih =>
    rcases ih with h | ⟨j, k, hj, hf⟩
    · have := nextOk_or_fails { s with bankCount := s.bankCount + 4 * n }
      simp only [State.NextOk, State.FailsAfter, State.answerAt, Nat.add_assoc] at this h ⊢
      rcases this with h4 | ⟨k, hk⟩
      · refine .inl fun j hj => ?_
        by_cases hlt : j < 4 * n
        · exact h j hlt
        · have := h4 (j - 4 * n) (by omega)
          rwa [show 4 * n + (j - 4 * n) = j by omega] at this
      · refine .inr ⟨n, k, by omega, fun j hj => ?_, hk.2⟩
        by_cases hlt : j < 4 * n
        · exact h j hlt
        · have := hk.1 (j - 4 * n) (by omega)
          rwa [show 4 * n + (j - 4 * n) = j by omega] at this
    · exact .inr ⟨j, k, by omega, hf⟩

/-- Everything a STEP that ends in a next state can have done: all four writes `ok`, or a first failure at a line. -/
theorem execStep_cases {s t : State} (h : exec .step s = .next t) :
    s.Ready ∧
    ((s.NextOk 4 ∧ t = { s with
        phase := targetIndex s
        out := Lines.ofRow (targetRow s)
        bankCount := s.bankCount + 4
        events := s.events ++ (rowEvents (targetRow s) ++ waitEvents s.hasTs s.stepInterval ++ [.evResult .ok]) }) ∨
     ∃ (k : Line) (o : Lines), s.FailsAfter (k.number - 1) ∧ (∀ j, o.get j = s.out.failedAt (targetRow s) k j) ∧
      t = { s with
        out := o
        bankCount := s.bankCount + k.number
        events := s.events ++ (failedRowEvents (targetRow s) k ++ [.evResult .outputFault]) }) := by
  simp only [exec, execStep] at h
  obtain ⟨hr, rfl⟩ := accept_next h
  refine ⟨hr, ?_⟩
  rcases nextOk_or_fails s with hok | ⟨k, hf⟩
  · refine .inl ⟨hok, ?_⟩
    rw [doStep_ok (s := startCommand s) hok]
    simp [endCommand, record, startCommand, hr.1, targetIndex, targetRow]
  · obtain ⟨o, ho, hget⟩ := doStep_fail (s := startCommand s) (k := k) hf
    refine .inr ⟨k, o, hf, hget, ?_⟩
    rw [ho]
    simp [endCommand, record, startCommand, hr.1, targetRow, targetIndex]

/-- Everything a STEPFOR that ends in a next state can have done: every step's writes `ok`, or a first failure at a line
of step `j + 1`. -/
theorem execStepFor_cases {n : BitVec 32} {ivl : BitVec 28} {s t : State} (h : exec (.stepFor n ivl) s = .next t) :
    s.Ready ∧
    ((s.NextOk (4 * n.toNat) ∧ t = { s with
        phase := s.indexAfter n.toNat
        out := if n.toNat = 0 then s.out else Lines.ofRow (s.rowAfter n.toNat)
        sfRem := 0#32
        sfIvl := 0#28
        bankCount := s.bankCount + 4 * n.toNat
        events := s.events ++ (s.stepsEvents ivl.toNat n.toNat n.toNat ++ [.evResult .ok]) }) ∨
     ∃ (j : Nat) (k : Line) (o : Lines), j < n.toNat ∧ s.FailsAfter (4 * j + (k.number - 1)) ∧
      (∀ l, o.get l = (if j = 0 then s.out else Lines.ofRow (s.rowAfter j)).failedAt (s.rowAfter (j + 1)) k l) ∧
      t = { s with
        phase := s.indexAfter j
        out := o
        sfRem := 0#32
        sfIvl := 0#28
        bankCount := s.bankCount + (4 * j + k.number)
        events := s.events ++ (s.stepsEvents ivl.toNat n.toNat j ++ failedRowEvents (s.rowAfter (j + 1)) k ++
          [.evResult .outputFault]) }) := by
  simp only [exec, execStepFor] at h
  obtain ⟨hr, rfl⟩ := accept_next h
  refine ⟨hr, ?_⟩
  have hidx : ∀ i, (loadStepFor n ivl (startCommand s)).indexAfter i = s.indexAfter i := by
    intro i
    induction i with
    | zero => rfl
    | succ i ih => simp only [State.indexAfter, ih]; rfl
  have hrow : ∀ i, (loadStepFor n ivl (startCommand s)).rowAfter i = s.rowAfter i := by
    intro i; simp only [State.rowAfter, hidx]; rfl
  have hev : ∀ i, (loadStepFor n ivl (startCommand s)).stepsEvents (intervalUnits ivl) n.toNat i =
      s.stepsEvents ivl.toNat n.toNat i := by
    intro i; simp only [State.stepsEvents, State.countedStepEvents, hrow]; rfl
  rcases nextOk_or_fails_steps s n.toNat with hok | ⟨j, k, hj, hf⟩
  · refine .inl ⟨hok, ?_⟩
    have hl := stepForLoop_ok (s := loadStepFor n ivl (startCommand s)) hok
    simp only [loadStepFor_sfRem] at hl
    simp only [stepCount, hl]
    simp [State.afterSteps, endCommand, record, clearStepFor, hidx, hrow, hev, hr.1]
  · obtain ⟨o, hl, hget⟩ := stepForLoop_fail (s := loadStepFor n ivl (startCommand s)) (j := j) (k := k) hj hf
    simp only [loadStepFor_sfRem] at hl hget
    refine .inr ⟨j, k, o, hj, hf, ?_, ?_⟩
    · intro l
      rw [hget l, hrow]
      simp [State.afterSteps, hrow]
    · simp only [stepCount, hl]
      simp [State.afterSteps, endCommand, record, clearStepFor, hidx, hrow, hev, hr.1]

/-- Everything a SETDIR that ends in a next state can have done. -/
theorem execSetDir_cases {d : Dir} {s t : State} (h : exec (.setDir d) s = .next t) :
    s.Ready ∧ t = { s with dir := d, events := s.events ++ [.evResult .ok] } := by
  simp only [exec, execSetDir] at h
  obtain ⟨hr, rfl⟩ := accept_next h
  exact ⟨hr, by simp [endCommand, record, startCommand, hr.1]⟩

/-- A command presented to a ready block ends in a next state. -/
theorem exec_ready {s : State} (h : s.Ready) (i : Instr) : ∃ t, exec i s = .next t := by
  cases i <;> simp only [exec, execSetDir, execStep, execStepFor, accept_ready h] <;> exact ⟨_, rfl⟩

/-- Only a ready block takes a command to a next state. -/
theorem ready_of_exec {i : Instr} {s t : State} (h : exec i s = .next t) : s.Ready := by
  cases i <;> simp only [exec, execSetDir, execStep, execStepFor] at h <;> exact (accept_next h).1

/-- A step that ends in a next state did nothing on a ready block, or served a command that decodes. -/
theorem step_cases {s t : State} (h : step s = .next t) :
    (s.inbox = [] ∧ s.Ready ∧ t = s) ∨
    ∃ bytes rest i, s.inbox = .command bytes :: rest ∧ decodeBytes bytes = .ok i ∧
      exec i { s with inbox := rest } = .next t := by
  unfold step serveInbox at h
  split at h
  · unfold idle at h
    split at h
    · cases h
    · rename_i hin hb
      split at h
      · rename_i hp
        cases h
        exact .inl ⟨hin, ⟨by simpa using hb, hp⟩, rfl⟩
      · cases h
  · unfold serve at h
    split at h
    · split at h
      · exact .inr ⟨_, _, _, ‹_›, ‹_›, h⟩
      · cases h
    · cases h

/-- Only a ready block steps to a next state: BUSY 0 and PHASE in the pattern. -/
theorem ready_of_step {s t : State} (h : step s = .next t) : s.Ready := by
  obtain ⟨_, hr, _⟩ | ⟨_, _, _, _, _, he⟩ := step_cases h
  · exact hr
  · exact ⟨(ready_of_exec he).1, (ready_of_exec he).2⟩

end Sys2Proof.Machine
end

