-- ==== Sys2Proof/Laws/Flight.lean ====
section
/-! SUPPORT. Laws/Flight.lean: one event of a running command, said once for each of its positions. -/
namespace Sys2Proof.Machine

/-- Running `m + 1` events begins with one. -/
theorem Flight.run_succ (m : Nat) (f : Flight) : f.run (m + 1) = f.advance.run m := rfl

/-- Running events in two portions. -/
theorem Flight.run_add (a b : Nat) (f : Flight) : f.run (a + b) = (f.run a).run b := by
  induction a generalizing f with
  | zero => rw [Nat.zero_add]; rfl
  | succ a ih => rw [show a + 1 + b = a + b + 1 by omega, Flight.run_succ, ih]; rfl

/-- An idle block issues nothing. -/
theorem Flight.advance_idle {f : Flight} (h : f.pos = none) : f.advance = f := by
  unfold Flight.advance; rw [h]

/-- A command that has returned stays returned. -/
theorem Flight.run_idle {f : Flight} (h : f.pos = none) (m : Nat) : f.run m = f := by
  induction m with
  | zero => rfl
  | succ m ih => rw [Flight.run_succ, Flight.advance_idle h, ih]

/-- A line write answered `ok`: the next line, or after IN4 the commit and what follows the step. -/
theorem Flight.writeLine_ok {f : Flight} (k : Line) (h : f.st.answerAt f.st.bankCount = .ok) :
    f.writeLine k =
      (match k.following with
       | some k' =>
         { f with st := { f.st with out := f.st.out.set k (some (rowLevel (targetRow f.st) k)),
                                    bankCount := f.st.bankCount + 1,
                                    events := f.st.events ++ [.evWrite k (rowLevel (targetRow f.st) k) .ok] },
                  pos := some (.line k') }
       | none =>
         let st := { f.st with phase := targetIndex f.st,
                               out := f.st.out.set k (some (rowLevel (targetRow f.st) k)),
                               bankCount := f.st.bankCount + 1,
                               events := f.st.events ++ [.evWrite k (rowLevel (targetRow f.st) k) .ok] }
         if st.hasTs then { f with st := st, pos := some .pace } else { f with st := st }.stepDone) := by
  unfold Flight.writeLine; rw [outWrite_ok k _ h] <;> rfl

/-- A line write answered `fail`: the command's result is next. -/
theorem Flight.writeLine_fail {f : Flight} (k : Line) (h : f.st.answerAt f.st.bankCount = .fail) :
    f.writeLine k =
      { f with st := { f.st with out := f.st.out.set k none, bankCount := f.st.bankCount + 1,
                                 events := f.st.events ++ [.evWrite k (rowLevel (targetRow f.st) k) .fail] },
               pos := some (.answer .outputFault) } := by
  unfold Flight.writeLine; rw [outWrite_fail k _ h]

/-- What follows a step that succeeded records nothing and goes on inside the command. -/
theorem Flight.stepDone_events (f : Flight) :
    f.stepDone.st.events = f.st.events ∧ f.stepDone.st.busy = f.st.busy ∧ f.stepDone.pos ≠ none := by
  unfold Flight.stepDone
  split
  · simp only; split
    · simp
    · split <;> simp
  · simp

/-- While a command runs the two views refuse every request alike. -/
theorem Flight.offer_of_busy {f : Flight} (h : f.st.busy = true) (q : Request) :
    ∃ why, f.offer q = .refused why ∧ serve q f.st = .refused why := by
  cases q with
  | construct hasTs stepInterval => exact ⟨_, rfl, rfl⟩
  | command bytes =>
    cases hd : decodeBytes bytes with
    | error why => exact ⟨.rejectedWord why, by simp [Flight.offer, hd], by simp [serve, hd]⟩
    | ok i =>
      exact ⟨.commandWhileBusy, by simp [Flight.offer, hd, h], by
        cases i <;> simp [serve, hd, exec, execSetDir, execStep, execStepFor, accept, h]⟩

/-- A command offered to the idle block with PHASE in the pattern is launched. -/
theorem Flight.offer_of_ready {f : Flight} (h : f.st.Ready) {bytes : List Byte} {i : Instr}
    (hd : decodeBytes bytes = .ok i) : f.offer (.command bytes) = .next (launch i f.st) := by
  simp [Flight.offer, hd, h.1, h.2]

end Sys2Proof.Machine
end

