-- ==== Sys2Proof/Laws/PerInstr.lean ====
section
/-! SUPPORT. Laws/PerInstr.lean: laws of every command, one lemma per constructor. -/

/-- The opcode map (spec/30_encoding.md R74): what OPC the encoder gives each command. -/
def Sys2Proof.Laws.EncodedOpcode.Statement (i : Sys2Proof.Instr) : Prop :=
  Sys2Proof.opcField (Sys2Proof.encode i) =
    match i with
    | .setDir _ => 0x1#4
    | .step => 0x2#4
    | .stepFor _ _ => 0x3#4

theorem Sys2Proof.Laws.EncodedOpcode.setDir (d : Sys2Proof.Dir) : Sys2Proof.Laws.EncodedOpcode.Statement (.setDir d) := by
  cases d <;> (unfold Sys2Proof.Laws.EncodedOpcode.Statement; decide)

theorem Sys2Proof.Laws.EncodedOpcode.step : Sys2Proof.Laws.EncodedOpcode.Statement .step := by
  unfold Sys2Proof.Laws.EncodedOpcode.Statement; decide

theorem Sys2Proof.Laws.EncodedOpcode.stepFor (n : BitVec 32) (ivl : BitVec 28) :
    Sys2Proof.Laws.EncodedOpcode.Statement (.stepFor n ivl) := by
  have hn := n.isLt
  have hi := ivl.isLt
  show Sys2Proof.opcField (Sys2Proof.encode (.stepFor n ivl)) = 0x3#4
  rw [Sys2Proof.opcField_eq_iff _ (k := 3) (by omega), Sys2Proof.encode_stepFor_toNat]
  omega
end

