-- ==== Sys2Proof/Tests/Slice0.lean ====
section
/-! SUPPORT. Tests/Slice0.lean: the model's own tests. Expected values are those of spec/95_test_vectors.md (the vector's id
is named), words are written out from spec/30_encoding.md R73. `witness_<Name>` shows a concrete state that meets every
hypothesis of obligation <Name>. -/
namespace Sys2Proof.Machine.Tests

/-- HALF8 of 92_eei_decisions.md D18, a pattern for vectors only. -/
abbrev half8 : Pattern where
  row0 := 0b0001#4
  row1 := 0b0011#4
  more := [0b0010#4, 0b0110#4, 0b0100#4, 0b1100#4, 0b1000#4, 0b1001#4]

/-- A state with HALF8, at an index, with the Output Bank's next answers. -/
abbrev at8 (phase : Nat) (dir : Dir) (script : List Answer) : State :=
  { State.construct half8 false 0 with phase := phase, dir := dir, bankScript := script }

/-- The same with a time source and an inter-step interval. -/
abbrev timed8 (stepInterval : Nat) (script : List Answer) : State :=
  { State.construct half8 true stepInterval with bankScript := script }

/-- `m` answers `ok`. -/
abbrev oks (m : Nat) : List Answer := List.replicate m .ok

/-- The next state, if there is one. -/
def after (i : Instr) (s : State) : Option State :=
  match exec i s with
  | .next t => some t
  | _ => none

/-- Lines from four levels. -/
abbrev lines (a b c d : Option Bool) : Lines := { in1 := a, in2 := b, in3 := c, in4 := d }

/-! ### WellFormed: each check refuses an ill-formed term -/

theorem test_wellFormed_refuses_wide_n : AsmLine.wellFormed (.stepfor (2 ^ 32) 0) = false := by decide
theorem test_wellFormed_refuses_wide_interval : AsmLine.wellFormed (.stepfor 0 (2 ^ 28)) = false := by decide
theorem test_wellFormed_takes_largest : AsmLine.wellFormed (.stepfor (2 ^ 32 - 1) (2 ^ 28 - 1)) = true := by decide
theorem test_rowsWellFormed_refuses_one_row : rowsWellFormed [0b0011#4] = false := by decide
theorem test_rowsWellFormed_refuses_no_row : rowsWellFormed [] = false := by decide

/-! ### Decoding (vectors of 2.1) -/

theorem test_decode_setDir_reverse :
    decodeTableWord 64 0b0001000000000000000000000000000000000000000000000000000000000001 = some (.setDir .reverse) := by
  decide
theorem test_decode_step :
    decodeTableWord 64 0b0010000000000000000000000000000000000000000000000000000000000000 = some .step := by decide
theorem test_decode_stepFor :
    decodeTableWord 64 0b0011000000000000000000000000001000000000000000000000000000000101 = some (.stepFor 5 2) := by
  decide
theorem test_decode_stepFor_largest :
    decodeTableWord 64 0x3FFFFFFFFFFFFFFF = some (.stepFor 4294967295 268435455) := by decide
theorem test_decode_refuses_setDir_bit_59 : decodeWord 0x1800000000000000#64 = .error .setDirReservedBits := by decide
theorem test_decode_refuses_step_bit_32 : decodeWord 0x2000000100000000#64 = .error .stepReservedBits := by decide
theorem test_decode_refuses_zero_word : decodeWord 0x0000000000000000#64 = .error .illegalOpcode := by decide
theorem test_bytes_least_significant_first :
    wordBytes 0x300000040000000A#64 = [0x0A, 0x00, 0x00, 0x00, 0x04, 0x00, 0x00, 0x30] := by decide
theorem test_encode_stepFor : encode (.stepFor 10 4) = 0x300000040000000A#64 := by decide

/-! ### The assembler's two forms (R80) -/

theorem test_reads_mnemonic_form : readLine "STEPFOR 10, 0x4".toList = some (.stepfor 10 4) := by decide
theorem test_reads_api_form : readLine "step_for(10, 4)".toList = some (.stepfor 10 4) := by decide
theorem test_reads_setdir : readLine "SETDIR R".toList = readLine "set_direction(Reverse)".toList := by decide
theorem test_refuses_other_text : readLine "STEPFOR 10".toList = none := by decide

/-! ### Index arithmetic and DELAY_MS (vectors of 2.3 and 2.7) -/

theorem test_next_index :
    nextIndex 8 7 .forward = 0 ∧ nextIndex 8 0 .reverse = 7 ∧ nextIndex 3 2 .forward = 0 ∧ nextIndex 3 0 .reverse = 2 ∧
    nextIndex 2 1 .reverse = 0 ∧ nextIndex 8 5 .reverse = 4 := by decide
theorem test_delayMs :
    delayMs 1 2048 = .ok 29 ∧ delayMs 10 2048 = .ok 2 ∧ delayMs 1 60000 = .ok 1 ∧ delayMs 1 60001 = .ok 0 ∧
    delayMs 15 4096 = .ok 0 ∧ delayMs 0 2048 = .error .delayZeroDivisor := by decide
theorem test_phaseBits : half8.phaseBits = 3 := by decide

/-! ### One command each (vectors of 2.4 to 2.6) -/

/-- 2.4, first row. -/
theorem test_setDir_keeps_phase :
    (after (.setDir .reverse) (at8 5 .forward [])).map (fun t => (t.phase, t.dir, t.out, t.events)) =
      some (5, .reverse, lines none none none none, [.evResult .ok]) := by decide

/-- S5: the wait after the four writes, before the result. -/
theorem test_step_waits_before_result :
    (after .step { timed8 2000 (oks 4) with phase := 1 }).map (fun t => (t.phase, t.out, t.events)) =
      some (2, lines (some false) (some true) (some false) (some false),
        [.evWrite .in1 false .ok, .evWrite .in2 true .ok, .evWrite .in3 false .ok, .evWrite .in4 false .ok,
         .evWait 2000, .evResult .ok]) := by decide

/-- S8: IN3 fails; IN4 keeps its level. -/
theorem test_step_fails_at_in3 :
    (after .step { at8 4 .forward [.ok, .ok, .fail] with out := Lines.ofRow 0b0100#4 }).map
        (fun t => (t.phase, t.out, t.events)) =
      some (4, lines (some false) (some false) none (some false),
        [.evWrite .in1 false .ok, .evWrite .in2 false .ok, .evWrite .in3 true .fail, .evResult .outputFault]) := by
  decide

/-- F7: the third step's IN4 fails. -/
theorem test_stepFor_stops_at_failure :
    (after (.stepFor 3 10) (timed8 100 (oks 11 ++ [.fail]))).map
        (fun t => (t.phase, t.out, t.sfRem, countEvents Event.isWait t.events)) =
      some (2, lines (some false) (some true) (some true) none, 0#32, 4) := by decide

/-- F3: five waits, in their order around the rows. -/
theorem test_stepFor_waits_between_steps :
    (after (.stepFor 3 10) (timed8 100 (oks 12))).map (fun t => (t.phase, t.events.filter Event.isWait)) =
      some (3, [.evWait 100, .evWait 10, .evWait 100, .evWait 10, .evWait 100]) := by decide

/-- The step runs a presented word as the first command after reset, whatever the open parameters are. -/
theorem test_step_runs_after_reset :
    step (State.reset.withFetchWord 64 0x300000040000000A) = exec (.stepFor 10 4) State.reset := rfl

/-- The event-by-event view of S5: idle again after six events. -/
theorem test_flight_returns :
    ((launch .step { timed8 2000 (oks 4) with phase := 1 }).run 5).pos = some (.answer .ok) ∧
    ((launch .step { timed8 2000 (oks 4) with phase := 1 }).run 6).pos = none := by decide

/-! ### Witnesses: every hypothesis met together by a concrete state -/

theorem witness_SetDirWritesDirectionOnly : (at8 7 .forward []).Ready := by decide
theorem witness_SetDirKeepsPhaseIndex : ∃ t, exec (.setDir .reverse) (at8 5 .forward []) = .next t := ⟨_, rfl⟩
theorem witness_OnlySetDirChangesDirection :
    (∃ t, (∀ d, Instr.step ≠ .setDir d) ∧ exec .step (at8 0 .forward (oks 4)) = .next t) ∧
    (∃ t, step ((at8 0 .forward []).withFetchWord 64 0x1000000000000001) = .next t ∧ t.dir ≠ Dir.forward) :=
  ⟨⟨_, by simp, rfl⟩, _, rfl, by decide⟩
theorem witness_DirectionGovernsTheNextStep :
    ∃ t u, exec (.setDir .reverse) (at8 0 .forward (oks 4)) = .next t ∧ exec .step t = .next u ∧
      u.lastResult = some .ok ∧ u.phase = 7 := ⟨_, _, rfl, rfl, by decide, by decide⟩
theorem witness_NextIndexWrapsAroundThePattern : 2 ≤ 2 ∧ 0 < 2 ∧ 1 < 2 := by decide
theorem witness_StepWithFourWritesOk : (at8 7 .forward (oks 4)).Ready ∧ (at8 7 .forward (oks 4)).NextOk 4 := by decide
theorem witness_StepWithFailingWrite_in1 : (at8 4 .forward [.fail]).Ready ∧ (at8 4 .forward [.fail]).FailsAfter 0 := by
  decide
theorem witness_StepWithFailingWrite_in4 :
    (at8 4 .forward [.ok, .ok, .ok, .fail]).Ready ∧
    (at8 4 .forward [.ok, .ok, .ok, .fail]).FailsAfter (Line.in4.number - 1) := by decide
theorem witness_SuccessfulStepAppliesItsRow :
    (∃ t, exec .step (at8 7 .forward (oks 4)) = .next t ∧ t.lastResult = some .ok ∧ t.phase = 0) ∧
    (∃ t, exec .step (at8 4 .forward [.fail]) = .next t ∧ t.lastResult = some .outputFault) :=
  ⟨⟨_, rfl, by decide, by decide⟩, _, rfl, by decide⟩
theorem witness_StepIsNeverANoOp :
    ∃ t, exec .step (at8 0 .reverse (oks 4)) = .next t ∧ t.lastResult = some .ok ∧ t.phase = 7 :=
  ⟨_, rfl, by decide, by decide⟩
theorem witness_PhaseCountsTheSuccessfulSteps :
    (at8 1 .reverse (.fail :: oks 8)).Ready ∧
    ∃ t, execSteps 3 (at8 1 .reverse (.fail :: oks 8)) = .next t ∧ okResults t.events = 2 ∧ t.phase = 7 :=
  ⟨by decide, _, rfl, by decide, by decide⟩
theorem witness_StepsWithAllWritesOkAllSucceed :
    (at8 6 .forward (oks 12)).Ready ∧ (at8 6 .forward (oks 12)).NextOk (4 * 3) := by decide
theorem witness_TwoSuccessfulStepsApplyDifferentRows :
    ∃ t u, exec .step (at8 0 .forward (oks 8)) = .next t ∧ t.lastResult = some .ok ∧ exec .step t = .next u ∧
      u.lastResult = some .ok := ⟨_, _, rfl, by decide, rfl, by decide⟩
theorem witness_FaultOnIn3OfTheFifthStep :
    (at8 0 .forward (oks 18 ++ [.fail])).Ready ∧ (at8 0 .forward (oks 18 ++ [.fail])).FailsAfter 18 := by decide
theorem witness_StepForWithAllWritesOk :
    (timed8 100 (oks 8)).Ready ∧ 1 ≤ (2#32).toNat ∧ (timed8 100 (oks 8)).NextOk (4 * (2#32).toNat) := by decide
theorem witness_StepForWithFailingWrite_first :
    (timed8 100 [.fail]).Ready ∧ 1 ≤ 1 ∧ 1 ≤ (3#32).toNat ∧
    (timed8 100 [.fail]).FailsAfter (4 * (1 - 1) + (Line.in1.number - 1)) := by decide
theorem witness_StepForWithFailingWrite_last :
    (timed8 100 (oks 11 ++ [.fail])).Ready ∧ 1 ≤ 3 ∧ 3 ≤ (3#32).toNat ∧
    (timed8 100 (oks 11 ++ [.fail])).FailsAfter (4 * (3 - 1) + (Line.in4.number - 1)) := by decide
theorem witness_StepForWriteAndWaitCounts :
    (∃ t, exec (.stepFor 2 5) (timed8 100 (oks 8)) = .next t ∧ t.lastResult = some .ok) ∧
    (∃ t, exec (.stepFor 2 5) (timed8 100 (oks 4 ++ [.fail])) = .next t ∧ t.lastResult = some .outputFault) :=
  ⟨⟨_, rfl, by decide⟩, _, rfl, by decide⟩
theorem witness_StepForZeroOnlyAnswers : (timed8 100 []).Inv := by decide
theorem witness_StepForOneIsStep : (at8 7 .reverse [.ok, .fail]).Inv := by decide
theorem witness_StepForIgnoresIntervalWithoutTimeSource : (at8 0 .forward []).hasTs = false := by decide
theorem witness_StepForFullCycleReturnsToItsPhase :
    (at8 5 .forward (oks 32)).Ready ∧ (8#32).toNat = (at8 5 .forward (oks 32)).pattern.length ∧
    (at8 5 .forward (oks 32)).NextOk (4 * (8#32).toNat) := by decide
theorem witness_EveryAcceptedCommandReturns : (at8 7 .reverse [.fail]).Ready := by decide
theorem witness_CommandFrame :
    ∃ t, exec .step (at8 0 .forward [.ok, .fail]) = .next t ∧ (∀ n ivl, Instr.step ≠ .stepFor n ivl) ∧
      (∀ d, Instr.step ≠ .setDir d) ∧ Event.evWrite .in3 false .ok ∉ t.events ∧
      countEvents Event.completesRow t.events = 0 := ⟨_, rfl, by simp, by simp, by decide, by decide⟩
theorem witness_OnlySteppingReturnsOutputFault :
    (∃ t, exec (.stepFor 2 0) (at8 0 .forward [.fail]) = .next t ∧ t.lastResult = some .outputFault) ∧
    (at8 0 .forward []).Ready := ⟨⟨_, rfl, by decide⟩, by decide⟩
theorem witness_OutputFaultMeansAFailedWrite :
    ∃ t new, exec .step (at8 0 .forward [.fail]) = .next t ∧ t.events = [] ++ new ∧
      t.lastResult = some .outputFault := ⟨_, _, rfl, rfl, by decide⟩
theorem witness_NothingFollowsAFailedWrite :
    ∃ t, exec (.stepFor 5 10) (timed8 100 [.ok, .fail]) = .next t ∧ t.lastResult = some .outputFault :=
  ⟨_, rfl, by decide⟩
theorem witness_FaultIsPreciseForPhaseAndDirection :
    (∃ t, doStep (at8 4 .forward [.fail]) = (.outputFault, t)) ∧
    (∃ t, exec .step (at8 4 .forward [.ok, .ok, .ok, .fail]) = .next t ∧ t.lastResult = some .outputFault) ∧
    (∃ t, exec (.stepFor 3 0) (at8 4 .forward [.fail]) = .next t ∧ t.lastResult = some .outputFault) ∧
    (∃ t, exec (.stepFor 3 0) (at8 4 .forward (oks 11 ++ [.fail])) = .next t ∧ t.lastResult = some .outputFault) :=
  ⟨⟨_, rfl⟩, ⟨_, rfl, by decide⟩, ⟨_, rfl, by decide⟩, _, rfl, by decide⟩
theorem witness_AfterAFaultEveryCommandIsAccepted :
    ∃ t, exec .step (at8 4 .forward [.ok, .ok, .ok, .fail]) = .next t ∧ t.lastResult = some .outputFault :=
  ⟨_, rfl, by decide⟩
theorem witness_CommandWhileBusyIsRefused : ({ at8 0 .forward [] with busy := true } : State).busy = true := by decide
theorem witness_PhaseOutsideThePatternIsRefused :
    (at8 8 .forward []).busy = false ∧ (at8 8 .forward []).inbox = [] ∧
    (at8 8 .forward []).pattern.length ≤ (at8 8 .forward []).phase := by decide
theorem witness_SecondConstructionIsRefused :
    ({ at8 0 .forward [] with inbox := [.construct true 5] } : State).inbox = .construct true 5 :: [] := by decide
theorem witness_PatternReadGivesTheRow :
    memRead half8 7 = .ok 0b1001#4 ∧ half8.length ≤ 8 ∧ memRead half8 8 = .error .romIndexOutOfRange := by decide
theorem witness_OutWriteMovesOneLine : Line.in2 ≠ Line.in1 := by decide
theorem witness_ConfigurationIsImmutable :
    ∃ t, step ((at8 0 .forward (oks 4)).withFetchWord 64 0x2000000000000000) = .next t ∧ t.phase = 1 :=
  ⟨_, rfl, by decide⟩
theorem witness_NoWaitWithoutTimeSource :
    (at8 0 .forward (oks 8)).hasTs = false ∧ ∃ t, exec (.stepFor 2 9) (at8 0 .forward (oks 8)) = .next t :=
  ⟨by decide, _, rfl⟩
theorem witness_StepKeepsTheIdleInvariant :
    ((at8 7 .forward (oks 4)).withFetchWord 64 0x2000000000000000).Inv ∧
    ∃ t, step ((at8 7 .forward (oks 4)).withFetchWord 64 0x2000000000000000) = .next t := ⟨by decide, _, rfl⟩
theorem witness_StepKeepsTheLinesAsWritten :
    ((at8 0 .forward (oks 4)).withFetchWord 64 0x2000000000000000).LinesAgree ∧
    ∃ t, step ((at8 0 .forward (oks 4)).withFetchWord 64 0x2000000000000000) = .next t :=
  ⟨fun k => by cases k <;> rfl, _, rfl⟩
theorem witness_StepKeepsIndexMatchingLastCompletedRow :
    ((at8 0 .forward (oks 4)).withFetchWord 64 0x2000000000000000).IndexMatches ∧
    ∃ t, step ((at8 0 .forward (oks 4)).withFetchWord 64 0x2000000000000000) = .next t ∧ t.IndexMatches ∧
      lastRow t.events = some 0b0011#4 := ⟨rfl, _, rfl, rfl, by decide⟩
theorem witness_HistoryOnlyGrows :
    (∃ t, step ((at8 0 .forward [.fail]).withFetchWord 64 0x2000000000000000) = .next t ∧
      t.events = [.evWrite .in1 true .fail, .evResult .outputFault] ∧ t.bankCount = 1) ∧
    (∃ t, step (at8 0 .forward []) = .next t ∧ (at8 0 .forward []).inbox = []) :=
  ⟨⟨_, rfl, by decide, by decide⟩, _, rfl, rfl⟩
theorem witness_PhaseFitsItsRegister : (at8 7 .forward []).Inv := by decide
theorem witness_StepRunsTheDecodedCommand :
    ({ at8 0 .forward [] with inbox := [.command (wordBytes 0x2000000000000000#64)] } : State).inbox =
      .command (wordBytes 0x2000000000000000#64) :: [] ∧
    decodeBytes (wordBytes 0x2000000000000000#64) = .ok .step ∧
    decodeTableWord 64 0x1000000000000001 = some (.setDir .reverse) := by decide
theorem witness_NothingPresentedNothingDone :
    (at8 7 .forward []).inbox = [] ∧ (at8 7 .forward []).Ready ∧
    ({ at8 0 .forward [] with busy := true } : State).busy = true ∧
    (at8 8 .forward []).busy = false ∧ (at8 8 .forward []).pattern.length ≤ (at8 8 .forward []).phase := by decide
theorem witness_EncodeOfDecodeIsTheWord : decodeWord 0x3FFFFFFFFFFFFFFF#64 = .ok (.stepFor 0xFFFFFFFF 0xFFFFFFF) := by
  decide
theorem witness_IllegalWordsAreRefused :
    decodeWord 0x1000000000000002#64 = .error .setDirReservedBits ∧
    ({ at8 0 .forward [] with inbox := [.command (wordBytes 0x1000000000000002#64)] } : State).inbox =
      .command (wordBytes 0x1000000000000002#64) :: [] := by decide
theorem witness_PartialWordsAreRefused :
    ([0x0A#8, 0x00#8] : List Byte).length ≠ 8 ∧
    ({ at8 0 .forward [] with inbox := [.command [0x0A#8, 0x00#8]] } : State).inbox =
      .command [0x0A#8, 0x00#8] :: [] := by decide
theorem witness_AssemblerWordsAndRanges : 2 ^ 32 - 1 < 2 ^ 32 ∧ 2 ^ 28 - 1 < 2 ^ 28 ∧ 2 ^ 32 ≤ 2 ^ 32 := by decide
theorem witness_ConstructionRefusesFewerThanTwoRows :
    rowsWellFormed [0b0001#4] = false ∧ rowsWellFormed [0b0001#4, 0b0010#4] = true := by decide
theorem witness_DelayMsTruncates : 1 ≤ 1 ∧ 1 ≤ 60000 ∧ 1 * 60000 ≤ 60000 ∧ 60000 < 1 * 60001 := by decide
theorem witness_EventByEventRunEndsInExec : (timed8 100 (oks 8)).Ready := by decide
theorem witness_OneEventAtATime : (launch .step (at8 0 .forward [])).pos ≠ none := by decide
theorem witness_RunningCommandAcceptsNothing :
    ((launch (.stepFor 2 5) (timed8 100 (oks 8))).run 5).pos ≠ none ∧
    decodeBytes (wordBytes 0x2000000000000000#64) = .ok .step ∧ decodeBytes [0x0A#8] = .error .partialWord := by decide

/-- The view and `serve` refuse a partial word alike while a command runs (log 10). -/
theorem test_flight_refuses_partial_word_while_busy :
    (launch .step (at8 0 .forward [])).offer (.command [0x0A#8]) = .refused (.rejectedWord .partialWord) ∧
    serve (.command [0x0A#8]) (launch .step (at8 0 .forward [])).st = .refused (.rejectedWord .partialWord) := ⟨rfl, rfl⟩

end Sys2Proof.Machine.Tests
end

/-! PROOFS. The configuration and the ROM are fixed at construction (spec/00_scope.md R6, R7; spec/10_state.md R26,
R27). -/
namespace Sys2Proof.Machine

/-- No command writes the configuration, whatever its result. -/
theorem exec_sameConfiguration {i : Instr} {s t : State} (h : exec i s = .next t) : SameConfiguration s t := by
  cases i with
  | setDir d =>
    obtain ⟨_, rfl⟩ := execSetDir_cases h
    exact ⟨rfl, rfl, rfl⟩
  | step =>
    obtain ⟨_, ⟨_, rfl⟩ | ⟨_, _, _, _, rfl⟩⟩ := execStep_cases h
    · exact ⟨rfl, rfl, rfl⟩
    · exact ⟨rfl, rfl, rfl⟩
  | stepFor n ivl =>
    obtain ⟨_, ⟨_, rfl⟩ | ⟨_, _, _, _, _, _, rfl⟩⟩ := execStepFor_cases h
    · exact ⟨rfl, rfl, rfl⟩
    · exact ⟨rfl, rfl, rfl⟩

/-- Settles O37: a step does nothing, or serves a decoded command, and no command writes the configuration. -/
theorem configurationIsImmutable : Obligations.ConfigurationIsImmutable := by
  intro s t h
  obtain ⟨_, _, rfl⟩ | ⟨bytes, rest, i, _, _, hexec⟩ := step_cases h
  · exact ⟨rfl, rfl, rfl⟩
  · -- Taking the request off the inbox leaves the configuration as it was.
    exact exec_sameConfiguration (s := { s with inbox := rest }) hexec

end Sys2Proof.Machine

/-! PROOFS. The direction (spec/10_state.md R23; spec/41_step.md R129): only a SETDIR writes it. -/
namespace Sys2Proof.Machine

/-- SETDIR leaves the direction it was given. -/
theorem execSetDir_dir {d : Dir} {s t : State} (h : exec (.setDir d) s = .next t) : t.dir = d := by
  obtain ⟨_, rfl⟩ := execSetDir_cases h
  rfl

/-- No command but SETDIR writes DIR, whatever its result. -/
theorem exec_dir_of_ne_setDir {i : Instr} {s t : State} (hi : ∀ d, i ≠ .setDir d) (h : exec i s = .next t) :
    t.dir = s.dir := by
  cases i with
  | setDir d => exact absurd rfl (hi d)
  | step =>
    obtain ⟨_, ⟨_, rfl⟩ | ⟨_, _, _, _, rfl⟩⟩ := execStep_cases h
    · rfl
    · rfl
  | stepFor n ivl =>
    obtain ⟨_, ⟨_, rfl⟩ | ⟨_, _, _, _, _, _, rfl⟩⟩ := execStepFor_cases h
    · rfl
    · rfl

/-- A command after which DIR differs was the SETDIR of the direction it left. -/
theorem eq_setDir_of_exec_dir_ne {i : Instr} {s t : State} (h : exec i s = .next t) (hne : t.dir ≠ s.dir) :
    i = .setDir t.dir := by
  by_cases hi : ∃ d, i = .setDir d
  · obtain ⟨d, rfl⟩ := hi
    rw [execSetDir_dir h]
  · exact absurd (exec_dir_of_ne_setDir (not_exists.mp hi) h) hne

/-- Settles O6: the only command that writes DIR is SETDIR, and a step that does something serves one decoded command. -/
theorem onlySetDirChangesDirection : Obligations.OnlySetDirChangesDirection := by
  refine ⟨fun i s t => exec_dir_of_ne_setDir, outWrite_dir, wait_dir, fun s t h hne => ?_⟩
  obtain ⟨_, _, rfl⟩ | ⟨bytes, rest, i, hinbox, hdecode, hexec⟩ := step_cases h
  · exact absurd rfl hne
  · obtain rfl := eq_setDir_of_exec_dir_ne hexec hne
    exact ⟨bytes, rest, hinbox, hdecode⟩

end Sys2Proof.Machine

/-! PROOFS. A STEP's row (spec/10_state.md R29; spec/41_step.md R124): what the lines show after each of its two
results. -/
namespace Sys2Proof.Machine

/-- The result is the newest event. -/
theorem State.lastResult_of_events {s : State} {es : List Event} {r : Result} (h : s.events = es ++ [.evResult r]) :
    s.lastResult = some r := by
  simp [State.lastResult, h]

/-- The lines of a row, read one by one. -/
@[simp] theorem Lines.get_ofRow (row : Row) (k : Line) : (Lines.ofRow row).get k = some (rowLevel row k) := by
  cases k <;> rfl

/-- The line whose write failed is UNKNOWN (D10). -/
@[simp] theorem Lines.failedAt_self (o : Lines) (row : Row) (k : Line) : o.failedAt row k k = none := by
  simp [Lines.failedAt]

/-- After a failed row each line is UNKNOWN, at the new row or as before (D8, D9). -/
theorem Lines.failedAt_cases (o : Lines) (row : Row) (k j : Line) :
    o.failedAt row k j = none ∨ o.failedAt row k j = some (rowLevel row j) ∨ o.failedAt row k j = o.get j := by
  unfold Lines.failedAt
  split
  · exact .inr (.inl rfl)
  · split
    · exact .inl rfl
    · exact .inr (.inr rfl)

/-- The row a step applies is the pattern's row at the target index. -/
theorem rows_getElem?_targetIndex (s : State) : s.pattern.rows[targetIndex s]? = some (targetRow s) :=
  List.getElem?_eq_getElem (targetIndex_lt s)

/-- A STEP that returns OK moves PHASE to the target index and leaves the lines at the target row. -/
theorem execStep_ok {s t : State} (h : exec .step s = .next t) (hres : t.lastResult = some .ok) :
    t.phase = targetIndex s ∧ t.out = Lines.ofRow (targetRow s) := by
  obtain ⟨_, ⟨_, rfl⟩ | ⟨k, o, _, _, rfl⟩⟩ := execStep_cases h
  · exact ⟨rfl, rfl⟩
  · rw [State.lastResult_of_events (List.append_assoc ..).symm] at hres
    cases hres

/-- A STEP that returns OUTPUT_FAULT leaves the lines of a row whose write failed at some line. -/
theorem execStep_outputFault {s t : State} (h : exec .step s = .next t) (hres : t.lastResult = some .outputFault) :
    ∃ k : Line, ∀ j, t.out.get j = s.out.failedAt (targetRow s) k j := by
  obtain ⟨_, ⟨_, rfl⟩ | ⟨k, o, _, hget, rfl⟩⟩ := execStep_cases h
  · rw [State.lastResult_of_events (List.append_assoc ..).symm] at hres
    cases hres
  · exact ⟨k, hget⟩

/-- A two-row block after construction whose Output Bank fails the first line write. -/
def firstWriteFails : State :=
  { State.construct { row0 := 0b0001#4, row1 := 0b0010#4, more := [] } false 0 with bankScript := [.fail] }

/-- Settles O12: each result fixes the lines; `firstWriteFails` is where a STEP returns OUTPUT_FAULT. -/
theorem successfulStepAppliesItsRow : Obligations.SuccessfulStepAppliesItsRow := by
  refine ⟨fun s t h hres => ?_, fun s t h hres => ?_, firstWriteFails, _, by decide, rfl, by decide⟩
  · obtain ⟨hphase, hout⟩ := execStep_ok h hres
    obtain ⟨hpattern, _, _⟩ := exec_sameConfiguration h
    refine ⟨targetRow s, ?_, fun k => ?_⟩
    · rw [hpattern, hphase, rows_getElem?_targetIndex]
    · rw [hout, Lines.get_ofRow]
  · obtain ⟨k, hget⟩ := execStep_outputFault h hres
    refine ⟨⟨k, ?_⟩, fun j => ?_⟩
    · rw [hget, Lines.failedAt_self]
    · rw [hget]
      exact Lines.failedAt_cases s.out (targetRow s) k j

end Sys2Proof.Machine

/-! PROOFS. The pattern read (spec/20_memory.md R50; spec/10_state.md R28, R30): what it gives inside the ROM and outside
it. -/
namespace Sys2Proof.Machine

/-- Inside the ROM a read gives the pattern's row. -/
theorem memRead_of_lt {p : Pattern} {i : Nat} (h : i < p.length) : memRead p i = .ok (p.row i h) :=
  dif_pos h

/-- From `L` on a read is refused (I23). -/
theorem memRead_of_le {p : Pattern} {i : Nat} (h : p.length ≤ i) : memRead p i = .error .romIndexOutOfRange :=
  dif_neg (Nat.not_lt.mpr h)

/-- A read gives a row exactly where the list of rows holds it. -/
theorem memRead_eq_ok_iff {p : Pattern} {i : Nat} {row : Row} : memRead p i = .ok row ↔ p.rows[i]? = some row := by
  obtain h | h := Nat.lt_or_ge i p.length
  · have hrow : p.rows[i]? = some (p.row i h) := List.getElem?_eq_getElem h
    rw [memRead_of_lt h, hrow, Except.ok.injEq, Option.some.injEq]
  · have hnone : p.rows[i]? = none := List.getElem?_eq_none h
    simp [memRead_of_le h, hnone]

/-- The read of R120 step 2 stays inside the ROM (R30) and gives the row the step applies. -/
theorem memRead_targetIndex (s : State) : memRead s.pattern (targetIndex s) = .ok (targetRow s) :=
  memRead_of_lt (targetIndex_lt s)

/-- Settles O35: the two sides of the ROM's bound, and the target index, which NEXT keeps below it. -/
theorem patternReadGivesTheRow : Obligations.PatternReadGivesTheRow :=
  ⟨fun _ _ _ => memRead_eq_ok_iff, fun _ _ => memRead_of_le, fun _ _ => rfl, memRead_targetIndex⟩

end Sys2Proof.Machine

/-! PROOFS. SETDIR (spec/40_set_direction.md R100, R101): one command on a ready block, any number of them in a row, and
the index they leave alone. -/
namespace Sys2Proof.Machine

/-- A command that ends in a next state hands that state to the commands after it. -/
theorem execAll_cons {i : Instr} {s t : State} (h : exec i s = .next t) (is : List Instr) :
    execAll (i :: is) s = execAll is t := by
  rw [execAll, h]

/-- On a ready block SETDIR returns OK, and its whole effect is the direction it was given. -/
theorem execSetDir_ready {s : State} (h : s.Ready) (d : Dir) :
    exec (.setDir d) s = .next { s with dir := d, events := s.events ++ [.evResult .ok] } := by
  obtain ⟨t, ht⟩ := exec_ready h (.setDir d)
  obtain ⟨_, rfl⟩ := execSetDir_cases ht
  exact ht

/-- Any number of SETDIR in a row leave the last direction and one OK each: the block is ready again after each. -/
theorem execAll_setDirs {s : State} (h : s.Ready) (ds : List Dir) (d : Dir) :
    execAll (ds.map .setDir ++ [.setDir d]) s =
      .next { s with dir := d, events := s.events ++ List.replicate (ds.length + 1) (.evResult .ok) } := by
  induction ds generalizing s with
  | nil => exact execAll_cons (execSetDir_ready h d) []
  | cons d' ds ih =>
    have hready : State.Ready { s with dir := d', events := s.events ++ [.evResult .ok] } := h
    rw [List.map_cons, List.cons_append, execAll_cons (execSetDir_ready h d'), ih hready]
    simp [List.replicate_succ]

/-- Settles O4: the one command, the commands in a row, and the two words, which are closed terms. -/
theorem setDirWritesDirectionOnly : Obligations.SetDirWritesDirectionOnly :=
  ⟨fun d _ h => execSetDir_ready h d, fun ds d _ h => execAll_setDirs h ds d, rfl, rfl⟩

/-- Settles O5: the only next state SETDIR can end in differs in DIR and the history. -/
theorem setDirKeepsPhaseIndex : Obligations.SetDirKeepsPhaseIndex := by
  intro d s t h
  obtain ⟨_, rfl⟩ := execSetDir_cases h
  rfl

end Sys2Proof.Machine

/-! PROOFS. NEXT (spec/41_step.md R121): one position onward in each direction, and from the last round to the first. -/
namespace Sys2Proof.Machine

/-- Forward goes one up, and from the last index to 0. -/
theorem nextIndex_forward {len p : Nat} (h : p < len) :
    nextIndex len p .forward = if p = len - 1 then 0 else p + 1 := by
  show (p + 1) % len = _
  split
  · rw [show p + 1 = len by omega, Nat.mod_self]
  · exact Nat.mod_eq_of_lt (by omega)

/-- Reverse goes one down, and from 0 to the last index. -/
theorem nextIndex_reverse {len p : Nat} (h : p < len) :
    nextIndex len p .reverse = if p = 0 then len - 1 else p - 1 := by
  show (p + len - 1) % len = _
  split
  · rw [show p + len - 1 = len - 1 by omega]
    exact Nat.mod_eq_of_lt (by omega)
  · rw [show p + len - 1 = p - 1 + len by omega, Nat.add_mod_right]
    exact Nat.mod_eq_of_lt (by omega)

/-- Settles O9: the formulas are NEXT's definition, and each wraps at one end of the pattern. -/
theorem nextIndexWrapsAroundThePattern : Obligations.NextIndexWrapsAroundThePattern :=
  fun _ p hlen hp => ⟨rfl, rfl, nextIndex_forward hp, nextIndex_reverse hp, nextIndex_lt hlen p⟩

end Sys2Proof.Machine

/-! PROOFS. STEP commands in a row (spec/41_step.md R122, R124, R132): the next state of one STEP for each thing the
Output Bank can do to it, and the state after `m` STEPs whose writes are all answered `ok`. -/
namespace Sys2Proof.Machine

/-- Among writes all answered `ok` none is the first to fail. -/
theorem State.NextOk.not_failsAfter {s : State} {m n : Nat} (h : s.NextOk m) (hn : n < m) : ¬ s.FailsAfter n := by
  rintro ⟨_, hfail⟩
  rw [h n hn] at hfail
  cases hfail

/-- Only one write is the first to fail. -/
theorem State.FailsAfter.unique {s : State} {m n : Nat} (hm : s.FailsAfter m) (hn : s.FailsAfter n) : m = n := by
  obtain hlt | heq | hgt := Nat.lt_trichotomy m n
  · exact absurd hm (hn.1.not_failsAfter hlt)
  · exact heq
  · exact absurd hn (hm.1.not_failsAfter hgt)

/-- Line IN`k` is the `k`-th that a step writes (D8). -/
theorem Line.all_getElem?_number_sub_one (k : Line) : Line.all[k.number - 1]? = some k := by
  cases k <;> rfl

/-- A line is known by its place in the order of the writes. -/
theorem Line.eq_of_number_sub_one_eq {j k : Line} (h : j.number - 1 = k.number - 1) : j = k := by
  have hj := j.all_getElem?_number_sub_one
  rw [h, k.all_getElem?_number_sub_one] at hj
  exact (Option.some.inj hj).symm

/-- A step writes four lines. -/
theorem Line.number_sub_one_lt (k : Line) : k.number - 1 < 4 := by
  cases k <;> decide

/-- The events of a STEP to row `row` that returns OK (R122). -/
def State.okStepEvents (s : State) (row : Row) : List Event :=
  rowEvents row ++ waitEvents s.hasTs s.stepInterval ++ [.evResult .ok]

/-- A STEP of a ready block whose four writes are answered `ok` (R122). -/
theorem execStep_of_nextOk {s : State} (hready : s.Ready) (hok : s.NextOk 4) :
    exec .step s = .next { s with
      phase := targetIndex s
      out := Lines.ofRow (targetRow s)
      bankCount := s.bankCount + 4
      events := s.events ++ s.okStepEvents (targetRow s) } := by
  obtain ⟨t, ht⟩ := exec_ready hready .step
  obtain ⟨_, ⟨_, rfl⟩ | ⟨k, _, hfails, _⟩⟩ := execStep_cases ht
  · exact ht
  · exact absurd hfails (hok.not_failsAfter k.number_sub_one_lt)

/-- A STEP of a ready block whose first failing write is that of line `k` (R124). -/
theorem execStep_of_failsAfter {s : State} {k : Line} (hready : s.Ready) (hfails : s.FailsAfter (k.number - 1)) :
    ∃ o : Lines, exec .step s = .next { s with
        out := o
        bankCount := s.bankCount + k.number
        events := s.events ++ (failedRowEvents (targetRow s) k ++ [.evResult .outputFault]) } ∧
      ∀ j, o.get j = s.out.failedAt (targetRow s) k j := by
  obtain ⟨t, ht⟩ := exec_ready hready .step
  obtain ⟨_, ⟨hok, _⟩ | ⟨k', o, hfails', hget, rfl⟩⟩ := execStep_cases ht
  · exact absurd hfails (hok.not_failsAfter k.number_sub_one_lt)
  · obtain rfl := Line.eq_of_number_sub_one_eq (hfails'.unique hfails)
    exact ⟨o, ht, hget⟩

/-- Commands that end in a next state hand that state to the commands after them. -/
theorem execAll_append {is : List Instr} {s t : State} (h : execAll is s = .next t) (js : List Instr) :
    execAll (is ++ js) s = execAll js t := by
  induction is generalizing s with
  | nil => cases h; rfl
  | cons i is ih =>
    rw [execAll] at h
    split at h
    case h_1 u hu => rw [List.cons_append, execAll_cons hu, ih h]
    case h_2 | h_3 => cases h

/-- One more STEP at the end of a run of STEPs. -/
theorem execSteps_succ {m : Nat} {s u : State} (h : execSteps m s = .next u) :
    execSteps (m + 1) s = execAll [.step] u := by
  rw [execSteps, List.replicate_succ']
  exact execAll_append h _

/-- The state after `m` STEP commands that all returned OK. -/
def State.afterOkSteps (s : State) (m : Nat) : State :=
  { s with
    phase := s.indexAfter m
    out := if m = 0 then s.out else Lines.ofRow (s.rowAfter m)
    bankCount := s.bankCount + 4 * m
    events := s.events ++ (List.range m).flatMap fun i => s.okStepEvents (s.rowAfter (i + 1)) }

/-- Before the first STEP. -/
theorem afterOkSteps_zero (s : State) : s.afterOkSteps 0 = s := by
  simp [State.afterOkSteps, State.indexAfter]

/-- The row of the next STEP; the row depends on the pattern, the index and the direction alone. -/
theorem targetRow_afterOkSteps (s : State) (m : Nat) : targetRow (s.afterOkSteps m) = s.rowAfter (m + 1) :=
  targetRow_afterSteps s 0 m

/-- The answers still to come after `m` STEPs. -/
theorem answerAt_afterOkSteps (s : State) (m i : Nat) :
    (s.afterOkSteps m).answerAt ((s.afterOkSteps m).bankCount + i) = s.answerAt (s.bankCount + (4 * m + i)) := by
  rw [← Nat.add_assoc]; rfl

/-- The block stays ready: every index STEPs reach lies in the pattern. -/
theorem ready_afterOkSteps {s : State} (h : s.Ready) : ∀ m, (s.afterOkSteps m).Ready
  | 0 => h
  | m + 1 => ⟨h.1, s.indexAfter_succ_lt m⟩

/-- A write still to come after `m` STEPs, counted from there, is the first to fail. -/
theorem failsAfter_afterOkSteps {s : State} {m n : Nat} (h : s.FailsAfter (4 * m + n)) :
    (s.afterOkSteps m).FailsAfter n := by
  obtain ⟨hok, hfail⟩ := h
  refine ⟨fun j hj => ?_, ?_⟩
  · rw [answerAt_afterOkSteps]
    exact hok _ (by omega)
  · rw [answerAt_afterOkSteps]
    exact hfail

/-- One more STEP whose four writes are answered `ok`. -/
theorem execStep_afterOkSteps {s : State} {m : Nat} (hready : s.Ready) (hok : s.NextOk (4 * (m + 1))) :
    exec .step (s.afterOkSteps m) = .next (s.afterOkSteps (m + 1)) := by
  have hnext : (s.afterOkSteps m).NextOk 4 := fun j hj => by
    rw [answerAt_afterOkSteps]
    exact hok _ (by omega)
  rw [execStep_of_nextOk (ready_afterOkSteps hready m) hnext, targetRow_afterOkSteps]
  simp [State.afterOkSteps, State.okStepEvents, targetIndex, State.indexAfter, List.range_succ, Nat.mul_succ,
    Nat.add_assoc]

/-- `m` STEPs of a ready block whose writes are all answered `ok` (R122, `m` times). -/
theorem execSteps_of_nextOk {s : State} (hready : s.Ready) {m : Nat} (hok : s.NextOk (4 * m)) :
    execSteps m s = .next (s.afterOkSteps m) := by
  induction m with
  | zero => rw [afterOkSteps_zero]; rfl
  | succ m ih =>
    have hprefix := ih fun j hj => hok j (by omega)
    rw [execSteps_succ hprefix, execAll_cons (execStep_afterOkSteps hready hok)]
    rfl

/-- A STEP that returns OK records one OK result. -/
theorem okResults_okStepEvents (s : State) (row : Row) : okResults (s.okStepEvents row) = 1 := by
  cases hts : s.hasTs <;> simp [okResults, countEvents, State.okStepEvents, rowEvents, Line.all, waitEvents, hts]

/-- `m` STEPs that return OK record `m` OK results. -/
theorem okResults_afterOkSteps (s : State) (m : Nat) :
    okResults (s.afterOkSteps m).events = okResults s.events + m := by
  have hone := okResults_okStepEvents s
  simp only [okResults, countEvents] at hone
  simp [okResults, countEvents, State.afterOkSteps, List.countP_flatMap, Function.comp_def, hone]

/-- The lines after IN3's write failed: IN1 and IN2 at the new row, IN3 UNKNOWN, IN4 as before. -/
theorem Lines.eq_of_failedAt_in3 {o o' : Lines} {row : Row} (h : ∀ j, o'.get j = o.failedAt row .in3 j) :
    o' = { in1 := some (rowLevel row .in1), in2 := some (rowLevel row .in2), in3 := none, in4 := o.in4 } :=
  Lines.ext_get fun j => by rw [h j]; cases j <;> rfl

/-- Settles O17: the first 16 answers serve four STEPs, and the third of the fifth STEP's four is the one that fails. -/
theorem faultOnIn3OfTheFifthStep : Obligations.FaultOnIn3OfTheFifthStep := by
  intro s hready hfails
  have hsteps : execSteps 4 s = .next (s.afterOkSteps 4) :=
    execSteps_of_nextOk hready fun j hj => hfails.1 j (by omega)
  have hfifth : (s.afterOkSteps 4).FailsAfter (Line.in3.number - 1) := failsAfter_afterOkSteps (m := 4) hfails
  obtain ⟨o, hexec, hget⟩ := execStep_of_failsAfter (ready_afterOkSteps hready 4) hfifth
  rw [targetRow_afterOkSteps] at hget
  exact ⟨s.afterOkSteps 4, _, hsteps, okResults_afterOkSteps s 4, hexec,
    State.lastResult_of_events (List.append_assoc ..).symm, rfl, Lines.eq_of_failedAt_in3 hget⟩

end Sys2Proof.Machine

/-! PROOFS. What returns OUTPUT_FAULT (spec/60_exceptions.md R201): a SETDIR and a construction cannot. -/
namespace Sys2Proof.Machine

/-- SETDIR returns OK. -/
theorem execSetDir_lastResult {d : Dir} {s t : State} (h : exec (.setDir d) s = .next t) :
    t.lastResult = some .ok := by
  obtain ⟨_, rfl⟩ := execSetDir_cases h
  exact State.lastResult_of_events rfl

/-- Construction from the rows of a pattern gives the block of that pattern (R230). -/
theorem constructFromRows_rows (p : Pattern) (hasTs : Bool) (stepInterval : Nat) :
    constructFromRows p.rows hasTs stepInterval = .ok (State.construct p hasTs stepInterval) := rfl

/-- Settles O27: SETDIR's result is OK on every block that takes it, and a pattern's rows are never too few. -/
theorem onlySteppingReturnsOutputFault : Obligations.OnlySteppingReturnsOutputFault := by
  refine ⟨fun i s t h hres => ?_, fun d s hready => ?_, fun p hasTs stepInterval =>
    ⟨_, constructFromRows_rows p hasTs stepInterval⟩⟩
  · cases i with
    | setDir d =>
      rw [execSetDir_lastResult h] at hres
      cases hres
    | step => exact .inl rfl
    | stepFor n ivl => exact .inr ⟨n, ivl, rfl⟩
  · have hexec := execSetDir_ready hready d
    exact ⟨_, hexec, execSetDir_lastResult hexec⟩

end Sys2Proof.Machine

/-! PROOFS. A fault is precise for PHASE and DIR, not for OUT (spec/60_exceptions.md R208): the whole next state behind
each OUTPUT_FAULT, and the steps a STEPFOR completed before it, counted in its events. -/
namespace Sys2Proof.Machine

/-- Everything a step that fails can have done: a first failing write at some line, and nothing past it. -/
theorem doStep_outputFault_cases {s t : State} (h : doStep s = (.outputFault, t)) :
    ∃ (k : Line) (o : Lines), s.FailsAfter (k.number - 1) ∧ (∀ j, o.get j = s.out.failedAt (targetRow s) k j) ∧
      t = { s with
        out := o
        bankCount := s.bankCount + k.number
        events := s.events ++ failedRowEvents (targetRow s) k } := by
  obtain hok | ⟨k, hfails⟩ := nextOk_or_fails s
  · rw [doStep_ok hok] at h
    cases h
  · obtain ⟨o, hstep, hget⟩ := doStep_fail hfails
    rw [hstep] at h
    cases h
    exact ⟨k, o, hfails, hget, rfl⟩

/-- Everything a STEP that returns OUTPUT_FAULT can have done. -/
theorem execStep_outputFault_cases {s t : State} (h : exec .step s = .next t)
    (hres : t.lastResult = some .outputFault) :
    ∃ (k : Line) (o : Lines), s.FailsAfter (k.number - 1) ∧ (∀ j, o.get j = s.out.failedAt (targetRow s) k j) ∧
      t = { s with
        out := o
        bankCount := s.bankCount + k.number
        events := s.events ++ (failedRowEvents (targetRow s) k ++ [.evResult .outputFault]) } := by
  obtain ⟨_, ⟨_, rfl⟩ | hfault⟩ := execStep_cases h
  · rw [State.lastResult_of_events (List.append_assoc ..).symm] at hres
    cases hres
  · exact hfault

/-- Everything a STEPFOR that returns OUTPUT_FAULT can have done: `c` steps, and a failing write in the next one. -/
theorem execStepFor_outputFault_cases {n : BitVec 32} {ivl : BitVec 28} {s t : State}
    (h : exec (.stepFor n ivl) s = .next t) (hres : t.lastResult = some .outputFault) :
    ∃ (c : Nat) (k : Line) (o : Lines), c < n.toNat ∧ s.FailsAfter (4 * c + (k.number - 1)) ∧
      (∀ j, o.get j = (if c = 0 then s.out else Lines.ofRow (s.rowAfter c)).failedAt (s.rowAfter (c + 1)) k j) ∧
      t = { s with
        phase := s.indexAfter c
        out := o
        sfRem := 0#32
        sfIvl := 0#28
        bankCount := s.bankCount + (4 * c + k.number)
        events := s.events ++ (s.stepsEvents ivl.toNat n.toNat c ++ failedRowEvents (s.rowAfter (c + 1)) k ++
          [.evResult .outputFault]) } := by
  obtain ⟨_, ⟨_, rfl⟩ | hfault⟩ := execStepFor_cases h
  · rw [State.lastResult_of_events (List.append_assoc ..).symm] at hres
    cases hres
  · exact hfault

/-- Counting goes through the parts of a history. -/
@[simp] theorem countEvents_append (p : Event → Bool) (es es' : List Event) :
    countEvents p (es ++ es') = countEvents p es + countEvents p es' :=
  List.countP_append

/-- A row all of whose writes are answered `ok` is completed once. -/
@[simp] theorem countEvents_completesRow_rowEvents (row : Row) :
    countEvents Event.completesRow (rowEvents row) = 1 := rfl

/-- A wait completes no row. -/
@[simp] theorem countEvents_completesRow_waitEvents (hasTs : Bool) (t : Nat) :
    countEvents Event.completesRow (waitEvents hasTs t) = 0 := by
  cases hasTs <;> rfl

/-- A row with a failing write is not completed. -/
@[simp] theorem countEvents_completesRow_failedRowEvents (row : Row) (k : Line) :
    countEvents Event.completesRow (failedRowEvents row k) = 0 := by
  cases k <;> rfl

/-- Each counted step of a STEPFOR completes one row. -/
theorem countEvents_completesRow_countedStepEvents (s : State) (interval i : Nat) (last : Bool) :
    countEvents Event.completesRow (s.countedStepEvents interval i last) = 1 := by
  cases last <;> simp [State.countedStepEvents]

/-- The events of one more step of a STEPFOR. -/
theorem State.stepsEvents_succ (s : State) (interval n c : Nat) :
    s.stepsEvents interval n (c + 1) =
      s.stepsEvents interval n c ++ s.countedStepEvents interval (c + 1) (c + 1 == n) := by
  simp [State.stepsEvents, List.range_succ]

/-- The first `c` steps of a STEPFOR complete `c` rows. -/
@[simp] theorem countEvents_completesRow_stepsEvents (s : State) (interval n c : Nat) :
    countEvents Event.completesRow (s.stepsEvents interval n c) = c := by
  induction c with
  | zero => rfl
  | succ c ih =>
    rw [State.stepsEvents_succ, countEvents_append, ih, countEvents_completesRow_countedStepEvents]

/-- The rows completed by a STEPFOR that fails in the step after the first `c`. -/
theorem countEvents_completesRow_failedStepFor (s : State) (interval n c : Nat) (row : Row) (k : Line) :
    countEvents Event.completesRow
      (s.stepsEvents interval n c ++ failedRowEvents row k ++ [.evResult .outputFault]) = c := by
  have hresult : countEvents Event.completesRow [.evResult .outputFault] = 0 := rfl
  simp [hresult]

/-- Settles O30: what a failing step, STEP and STEPFOR can have done names the failing line and leaves PHASE and DIR to
the steps before it. -/
theorem faultIsPreciseForPhaseAndDirection : Obligations.FaultIsPreciseForPhaseAndDirection := by
  refine ⟨fun s t h => ?_, fun s t h hres => ?_, fun n ivl s t h hres => ?_⟩
  · obtain ⟨k, o, hfails, hget, rfl⟩ := doStep_outputFault_cases h
    exact ⟨rfl, rfl, k, hfails, rfl, hget⟩
  · obtain ⟨k, o, hfails, hget, rfl⟩ := execStep_outputFault_cases h hres
    exact ⟨rfl, rfl, k, hfails, rfl, hget⟩
  · obtain ⟨c, k, o, hc, hfails, hget, rfl⟩ := execStepFor_outputFault_cases h hres
    refine ⟨c, k, ?_, hc, rfl, rfl, hfails, ⟨_, rfl⟩, hget⟩
    rw [List.drop_left, countEvents_completesRow_failedStepFor]

end Sys2Proof.Machine

/-! PROOFS. Every command in one form: a SETDIR attempts no step, a STEP one, a STEPFOR `n`; each ends after some
completed steps, with OK or at a failing write (spec/40_set_direction.md R100, spec/41_step.md R122, R124,
spec/42_step_for.md R151, R152). The proofs about all commands have two cases and no case per command. -/
namespace Sys2Proof

/-- The steps a command attempts. -/
def Instr.steps : Instr → Nat
  | .setDir _ => 0
  | .step => 1
  | .stepFor n _ => n.toNat

/-- The interval a command waits between two of its steps; only a STEPFOR has two. -/
def Instr.interval : Instr → Nat
  | .stepFor _ ivl => ivl.toNat
  | _ => 0

/-- DIR after a command. -/
def Instr.dirAfter : Instr → Dir → Dir
  | .setDir d, _ => d
  | _, d => d

/-- SF_REM after a command. -/
def Instr.sfRemAfter : Instr → BitVec 32 → BitVec 32
  | .stepFor _ _, _ => 0#32
  | _, rem => rem

/-- SF_IVL after a command. -/
def Instr.sfIvlAfter : Instr → BitVec 28 → BitVec 28
  | .stepFor _ _, _ => 0#28
  | _, ivl => ivl

end Sys2Proof

namespace Sys2Proof.Machine

/-- The lines after `c` completed steps. -/
def State.linesAfter (s : State) (c : Nat) : Lines := if c = 0 then s.out else Lines.ofRow (s.rowAfter c)

/-- The lines after a row whose write failed at line `k` (R124). -/
def Lines.failRow (o : Lines) (row : Row) (k : Line) : Lines where
  in1 := o.failedAt row k .in1
  in2 := o.failedAt row k .in2
  in3 := o.failedAt row k .in3
  in4 := o.failedAt row k .in4

@[simp] theorem Lines.get_failRow (o : Lines) (row : Row) (k j : Line) :
    (o.failRow row k).get j = o.failedAt row k j := by
  cases j <;> rfl

/-- Lines known one by one to be those of a failed row. -/
theorem Lines.eq_failRow {o o' : Lines} {row : Row} {k : Line} (h : ∀ j, o'.get j = o.failedAt row k j) :
    o' = o.failRow row k :=
  Lines.ext_get fun j => by rw [h j, Lines.get_failRow]

/-- The state in which command `i` ends after `c` completed steps, the events `tail` and the result `r`. -/
def State.endedBy (s : State) (i : Instr) (c : Nat) (o : Lines) (tail : List Event) (r : Result) : State :=
  { s with
    phase := s.indexAfter c
    dir := i.dirAfter s.dir
    out := o
    sfRem := i.sfRemAfter s.sfRem
    sfIvl := i.sfIvlAfter s.sfIvl
    bankCount := s.bankCount + (4 * c + countEvents Event.isWrite tail)
    events := s.events ++ (s.stepsEvents i.interval i.steps c ++ tail ++ [.evResult r]) }

/-- The state in which command `i` ends when all its steps succeed. -/
def State.okEnd (s : State) (i : Instr) : State := s.endedBy i i.steps (s.linesAfter i.steps) [] .ok

/-- The state in which command `i` ends when the write of line `k` fails, in the step after `c` completed ones. -/
def State.faultEnd (s : State) (i : Instr) (c : Nat) (k : Line) : State :=
  s.endedBy i c ((s.linesAfter c).failRow (s.rowAfter (c + 1)) k) (failedRowEvents (s.rowAfter (c + 1)) k) .outputFault

/-- A failing row's writes: those up to the failing one. -/
@[simp] theorem countEvents_isWrite_failedRowEvents (row : Row) (k : Line) :
    countEvents Event.isWrite (failedRowEvents row k) = k.number := by
  cases k <;> rfl

/-- The events of the one step of a STEP, as those of a counted step that is the last. -/
theorem stepsEvents_one (s : State) (interval : Nat) :
    s.stepsEvents interval 1 1 = rowEvents (s.rowAfter 1) ++ waitEvents s.hasTs s.stepInterval := by
  simp [State.stepsEvents, State.countedStepEvents]

/-- Everything a command that ends in a next state can have done. -/
theorem exec_cases {i : Instr} {s t : State} (h : exec i s = .next t) :
    s.Ready ∧ ((s.NextOk (4 * i.steps) ∧ t = s.okEnd i) ∨
      ∃ (c : Nat) (k : Line), c < i.steps ∧ s.FailsAfter (4 * c + (k.number - 1)) ∧ t = s.faultEnd i c k) := by
  cases i with
  | setDir d =>
    obtain ⟨hready, rfl⟩ := execSetDir_cases h
    exact ⟨hready, .inl ⟨fun j hj => absurd hj j.not_lt_zero, rfl⟩⟩
  | step =>
    obtain ⟨hready, ⟨hok, rfl⟩ | ⟨k, o, hfails, hget, rfl⟩⟩ := execStep_cases h
    · refine ⟨hready, .inl ⟨hok, ?_⟩⟩
      simp only [State.okEnd, State.endedBy, Instr.steps, stepsEvents_one, targetRow_eq_rowAfter, List.append_nil]
      rfl
    · obtain rfl := Lines.eq_failRow hget
      refine ⟨hready, .inr ⟨0, k, Nat.one_pos, by rwa [Nat.mul_zero, Nat.zero_add], ?_⟩⟩
      simp only [State.faultEnd, State.endedBy, countEvents_isWrite_failedRowEvents, targetRow_eq_rowAfter,
        Nat.mul_zero, Nat.zero_add]
      rfl
  | stepFor n ivl =>
    obtain ⟨hready, ⟨hok, rfl⟩ | ⟨c, k, o, hc, hfails, hget, rfl⟩⟩ := execStepFor_cases h
    · refine ⟨hready, .inl ⟨hok, ?_⟩⟩
      simp only [State.okEnd, State.endedBy, List.append_nil]
      rfl
    · obtain rfl := Lines.eq_failRow hget
      refine ⟨hready, .inr ⟨c, k, hc, hfails, ?_⟩⟩
      simp only [State.faultEnd, State.endedBy, countEvents_isWrite_failedRowEvents]
      rfl

/-- A command of a ready block whose writes are all answered `ok`. -/
theorem exec_of_nextOk {i : Instr} {s : State} (hready : s.Ready) (hok : s.NextOk (4 * i.steps)) :
    exec i s = .next (s.okEnd i) := by
  obtain ⟨t, ht⟩ := exec_ready hready i
  obtain ⟨_, ⟨_, rfl⟩ | ⟨c, k, hc, hfails, _⟩⟩ := exec_cases ht
  · exact ht
  · have hk := k.number_sub_one_lt
    exact absurd hfails (hok.not_failsAfter (by omega))

/-- A command of a ready block whose first failing write is that of line `k` in the step after `c` completed ones. -/
theorem exec_of_failsAfter {i : Instr} {s : State} {c : Nat} {k : Line} (hready : s.Ready) (hc : c < i.steps)
    (hfails : s.FailsAfter (4 * c + (k.number - 1))) : exec i s = .next (s.faultEnd i c k) := by
  have hk := k.number_sub_one_lt
  obtain ⟨t, ht⟩ := exec_ready hready i
  obtain ⟨_, ⟨hok, _⟩ | ⟨c', k', _, hfails', rfl⟩⟩ := exec_cases ht
  · exact absurd hfails (hok.not_failsAfter (by omega))
  · have hk' := k'.number_sub_one_lt
    have hplace := hfails'.unique hfails
    obtain rfl : c' = c := by omega
    obtain rfl : k' = k := Line.eq_of_number_sub_one_eq (by omega)
    exact ht

/-- A command's result is the one it ended by. -/
@[simp] theorem State.lastResult_endedBy (s : State) (i : Instr) (c : Nat) (o : Lines) (tail : List Event)
    (r : Result) : (s.endedBy i c o tail r).lastResult = some r :=
  State.lastResult_of_events (List.append_assoc ..).symm

@[simp] theorem State.lastResult_okEnd (s : State) (i : Instr) : (s.okEnd i).lastResult = some .ok :=
  State.lastResult_endedBy ..

@[simp] theorem State.lastResult_faultEnd (s : State) (i : Instr) (c : Nat) (k : Line) :
    (s.faultEnd i c k).lastResult = some .outputFault :=
  State.lastResult_endedBy ..

end Sys2Proof.Machine

/-! PROOFS. The index after some steps (spec/41_step.md R121, R125, R126): a position of the pattern that each step
leaves, in closed form for each direction, and the row that stands there. -/
namespace Sys2Proof.Machine

/-- The index after any number of steps is a position of the pattern. -/
theorem State.indexAfter_lt {s : State} (h : s.phase < s.pattern.length) : ∀ c, s.indexAfter c < s.pattern.length
  | 0 => h
  | c + 1 => s.indexAfter_succ_lt c

/-- NEXT never stays where it is: a pattern has at least two rows (R31). -/
theorem nextIndex_ne {len p : Nat} (hlen : 2 ≤ len) (hp : p < len) (d : Dir) : nextIndex len p d ≠ p := by
  cases d with
  | forward => rw [nextIndex_forward hp]; split <;> omega
  | reverse => rw [nextIndex_reverse hp]; split <;> omega

/-- The forward law (R125): `c` steps go `c` up, modulo `L`. -/
theorem State.indexAfter_forward {s : State} (h : s.phase < s.pattern.length) (hd : s.dir = .forward) (c : Nat) :
    s.indexAfter c = (s.phase + c) % s.pattern.length := by
  induction c with
  | zero => exact (Nat.mod_eq_of_lt h).symm
  | succ c ih =>
    rw [State.indexAfter, hd, ih]
    exact Nat.mod_add_mod _ _ _

/-- Going one down from `a` down and going `a + 1` down are the same, modulo `len`. -/
theorem sub_succ_mod {len p a : Nat} (ha : a < len) :
    (p + len - a + (len - 1)) % len = (p + len - (a + 1) % len) % len := by
  obtain hlt | heq : a + 1 < len ∨ a + 1 = len := by omega
  · rw [Nat.mod_eq_of_lt hlt, show p + len - a + (len - 1) = p + len - (a + 1) + len by omega, Nat.add_mod_right]
  · rw [heq, Nat.mod_self, show p + len - a + (len - 1) = p + len - 0 by omega]

/-- The reverse law (R126): `c` steps go `c` down, modulo `L`. -/
theorem State.indexAfter_reverse {s : State} (h : s.phase < s.pattern.length) (hd : s.dir = .reverse) (c : Nat) :
    s.indexAfter c = (s.phase + s.pattern.length - c % s.pattern.length) % s.pattern.length := by
  induction c with
  | zero => rw [Nat.zero_mod, Nat.sub_zero, Nat.add_mod_right, Nat.mod_eq_of_lt h]; rfl
  | succ c ih =>
    have hpos : 0 < s.pattern.length := by omega
    rw [State.indexAfter, hd, ih, nextIndex, Nat.add_sub_assoc hpos, Nat.mod_add_mod,
      sub_succ_mod (Nat.mod_lt c hpos), Nat.mod_add_mod]

/-- A full cycle returns to its index (42_step_for.md R157). -/
theorem State.indexAfter_length {s : State} (h : s.phase < s.pattern.length) :
    s.indexAfter s.pattern.length = s.phase := by
  cases hd : s.dir with
  | forward => rw [State.indexAfter_forward h hd, Nat.add_mod_right, Nat.mod_eq_of_lt h]
  | reverse =>
    rw [State.indexAfter_reverse h hd, Nat.mod_self, Nat.sub_zero, Nat.add_mod_right, Nat.mod_eq_of_lt h]

/-- The row of a step is the pattern's row at the index the step moves to. -/
theorem rows_getElem?_indexAfter {s : State} {c : Nat} (hc : c ≠ 0) :
    s.pattern.rows[s.indexAfter c]? = some (s.rowAfter c) := by
  obtain ⟨c, rfl⟩ := Nat.exists_eq_succ_of_ne_zero hc
  rw [← targetRow_afterSteps s 0 c]
  exact rows_getElem?_targetIndex (s.afterSteps 0 c)

end Sys2Proof.Machine

/-! PROOFS. The three invariants of the states between commands (spec/10_state.md R24, R25, R30, R35; spec/41_step.md
R130): what each says after every command, and so after every step. -/
namespace Sys2Proof.Machine

/-- What every command keeps and the inbox has no part in, every step keeps. -/
theorem step_keeps {P : State → Prop} (hinbox : ∀ s rest, P s → P { s with inbox := rest })
    (hexec : ∀ i s t, P s → exec i s = .next t → P t) {s t : State} (hs : P s) (h : step s = .next t) : P t := by
  obtain ⟨_, _, rfl⟩ | ⟨bytes, rest, i, _, _, he⟩ := step_cases h
  · exact hs
  · exact hexec i _ t (hinbox s rest hs) he

/-- SF_REM is 0 after a command if it was 0 before it. -/
theorem sfRemAfter_zero (i : Instr) : i.sfRemAfter 0#32 = 0#32 := by cases i <;> rfl

/-- SF_IVL is 0 after a command if it was 0 before it. -/
theorem sfIvlAfter_zero (i : Instr) : i.sfIvlAfter 0#28 = 0#28 := by cases i <;> rfl

/-- A command's end meets the idle invariant, however the command ended. -/
theorem inv_endedBy {s : State} (hs : s.Inv) (i : Instr) (c : Nat) (o : Lines) (tail : List Event) (r : Result) :
    (s.endedBy i c o tail r).Inv := by
  obtain ⟨hbusy, hphase, hrem, hivl⟩ := hs
  refine ⟨hbusy, State.indexAfter_lt hphase c, ?_, ?_⟩
  · show i.sfRemAfter s.sfRem = 0#32
    rw [hrem, sfRemAfter_zero]
  · show i.sfIvlAfter s.sfIvl = 0#28
    rw [hivl, sfIvlAfter_zero]

/-- Settles O39: every command ends in an idle state at an index that steps reach, and the inbox has no part in it. -/
theorem stepKeepsTheIdleInvariant : Obligations.StepKeepsTheIdleInvariant := by
  refine fun s t => step_keeps (P := State.Inv) (fun _ _ hs => hs) fun i s t hs h => ?_
  obtain ⟨_, ⟨_, rfl⟩ | ⟨c, k, _, _, rfl⟩⟩ := exec_cases h
  · exact inv_endedBy hs ..
  · exact inv_endedBy hs ..

/-! What a history says of one line. -/

/-- The level of line `k` after one more event. -/
def levelSeen (k : Line) (level : Option Bool) : Event → Option Bool
  | .evWrite k' v r => if k' = k then levelAfter v r else level
  | _ => level

/-- The level of line `k` after some more events. -/
def levelFrom (k : Line) (level : Option Bool) (es : List Event) : Option Bool := es.foldl (levelSeen k) level

/-- A history's level of a line, read in two parts. -/
theorem levelOf_append (k : Line) (es es' : List Event) : levelOf k (es ++ es') = levelFrom k (levelOf k es) es' :=
  List.foldl_append

@[simp] theorem levelFrom_append (k : Line) (level : Option Bool) (es es' : List Event) :
    levelFrom k level (es ++ es') = levelFrom k (levelFrom k level es) es' :=
  List.foldl_append

@[simp] theorem levelFrom_nil (k : Line) (level : Option Bool) : levelFrom k level [] = level := rfl

@[simp] theorem levelFrom_evResult (k : Line) (level : Option Bool) (r : Result) :
    levelFrom k level [.evResult r] = level := rfl

/-- A completed row leaves its own level on each line. -/
@[simp] theorem levelFrom_rowEvents (k : Line) (level : Option Bool) (row : Row) :
    levelFrom k level (rowEvents row) = some (rowLevel row k) := by
  cases k <;> rfl

/-- A wait moves no line. -/
@[simp] theorem levelFrom_waitEvents (k : Line) (level : Option Bool) (hasTs : Bool) (t : Nat) :
    levelFrom k level (waitEvents hasTs t) = level := by
  cases hasTs <;> rfl

/-- A failed row leaves the new levels before the failing line, UNKNOWN on it and the old ones past it. -/
@[simp] theorem levelFrom_failedRowEvents (o : Lines) (row : Row) (j k : Line) :
    levelFrom j (o.get j) (failedRowEvents row k) = o.failedAt row k j := by
  cases j <;> cases k <;> rfl

/-- A counted step leaves its row's levels. -/
theorem levelFrom_countedStepEvents (s : State) (k : Line) (level : Option Bool) (interval i : Nat) (last : Bool) :
    levelFrom k level (s.countedStepEvents interval i last) = some (rowLevel (s.rowAfter i) k) := by
  cases last <;> simp [State.countedStepEvents]

/-- The events of `c` steps leave the lines after `c` steps. -/
@[simp] theorem levelFrom_stepsEvents (s : State) (k : Line) (interval n c : Nat) :
    levelFrom k (s.out.get k) (s.stepsEvents interval n c) = (s.linesAfter c).get k := by
  cases c with
  | zero => rfl
  | succ c =>
    rw [State.stepsEvents_succ, levelFrom_append, levelFrom_countedStepEvents]
    exact (Lines.get_ofRow ..).symm

/-- The events a command adds, in a history known to be the old one and some more. -/
theorem eq_of_events_endedBy {s : State} {i : Instr} {c : Nat} {o : Lines} {tail new : List Event} {r : Result}
    (h : (s.endedBy i c o tail r).events = s.events ++ new) :
    new = s.stepsEvents i.interval i.steps c ++ tail ++ [.evResult r] :=
  (List.append_cancel_left h).symm

/-- After a command each line has the level that the command's own events give it. -/
theorem exec_line_eq_levelFrom {i : Instr} {s t : State} {new : List Event} (h : exec i s = .next t)
    (hnew : t.events = s.events ++ new) (k : Line) : t.out.get k = levelFrom k (s.out.get k) new := by
  obtain ⟨_, ⟨_, rfl⟩ | ⟨c, k', _, _, rfl⟩⟩ := exec_cases h
  · rw [eq_of_events_endedBy hnew]
    simp [State.okEnd, State.endedBy]
  · rw [eq_of_events_endedBy hnew]
    simp [State.faultEnd, State.endedBy]

/-- A command only adds to the history. -/
theorem exec_events {i : Instr} {s t : State} (h : exec i s = .next t) : ∃ new, t.events = s.events ++ new := by
  obtain ⟨_, ⟨_, rfl⟩ | ⟨c, k, _, _, rfl⟩⟩ := exec_cases h
  · exact ⟨_, rfl⟩
  · exact ⟨_, rfl⟩

/-- Settles O40: a command's new events move each line as the command did, so what they add to the history is what they
did to the line. -/
theorem stepKeepsTheLinesAsWritten : Obligations.StepKeepsTheLinesAsWritten := by
  refine fun s t => step_keeps (P := State.LinesAgree) (fun _ _ hs => hs) fun i s t hs h k => ?_
  obtain ⟨new, hnew⟩ := exec_events h
  rw [exec_line_eq_levelFrom h hnew, hnew, levelOf_append, hs k]

/-! What a history says of the rows completed. -/

/-- A row is the levels of its four lines. -/
theorem rowLevel_bits (row : Row) :
    (if rowLevel row .in1 then 0x1#4 else 0x0#4) ||| (if rowLevel row .in2 then 0x2#4 else 0x0#4) |||
      (if rowLevel row .in3 then 0x4#4 else 0x0#4) ||| (if rowLevel row .in4 then 0x8#4 else 0x0#4) = row := by
  revert row; decide

/-- A completed row is the last one. -/
@[simp] theorem last_foldl_see_rowEvents (t : RowTrack) (row : Row) :
    ((rowEvents row).foldl RowTrack.see t).last = some row :=
  congrArg some (rowLevel_bits row)

/-- A wait is no part of a row. -/
@[simp] theorem foldl_see_waitEvents (t : RowTrack) (hasTs : Bool) (u : Nat) :
    (waitEvents hasTs u).foldl RowTrack.see t = t := by
  cases hasTs <;> rfl

/-- A row with a failing write is not completed. -/
@[simp] theorem last_foldl_see_failedRowEvents (t : RowTrack) (row : Row) (k : Line) :
    ((failedRowEvents row k).foldl RowTrack.see t).last = t.last := by
  cases k <;> rfl

/-- After a counted step its row is the last one. -/
theorem last_foldl_see_countedStepEvents (s : State) (t : RowTrack) (interval i : Nat) (last : Bool) :
    ((s.countedStepEvents interval i last).foldl RowTrack.see t).last = some (s.rowAfter i) := by
  cases last <;> simp [State.countedStepEvents]

/-- After `c` steps the last row is that of the last of them. -/
theorem last_foldl_see_stepsEvents (s : State) (t : RowTrack) (interval n c : Nat) :
    ((s.stepsEvents interval n c).foldl RowTrack.see t).last = if c = 0 then t.last else some (s.rowAfter c) := by
  cases c with
  | zero => rfl
  | succ c =>
    rw [State.stepsEvents_succ, List.foldl_append, last_foldl_see_countedStepEvents, if_neg c.succ_ne_zero]

/-- The last row completed after a command whose last events complete none. -/
theorem lastRow_endedBy {s : State} {i : Instr} {c : Nat} {o : Lines} {tail : List Event} {r : Result}
    (htail : ∀ t, (tail.foldl RowTrack.see t).last = t.last) :
    lastRow (s.endedBy i c o tail r).events = if c = 0 then lastRow s.events else some (s.rowAfter c) := by
  simp [lastRow, State.endedBy, RowTrack.see, htail, last_foldl_see_stepsEvents]

/-- A command whose last events complete no row keeps the index at the last row completed. -/
theorem indexMatches_endedBy {s : State} {i : Instr} {c : Nat} {o : Lines} {tail : List Event} {r : Result}
    (hs : s.IndexMatches) (htail : ∀ t, (tail.foldl RowTrack.see t).last = t.last) :
    (s.endedBy i c o tail r).IndexMatches := by
  have hlast := lastRow_endedBy (s := s) (i := i) (c := c) (o := o) (r := r) htail
  unfold State.IndexMatches
  by_cases hc : c = 0
  · -- No step completed: the index and the last row are as before.
    subst hc
    rw [hlast, if_pos rfl]
    exact hs
  · rw [hlast, if_neg hc]
    exact rows_getElem?_indexAfter (s := s) hc

/-- Settles O41: the index and the last completed row are both those of the last step that succeeded. -/
theorem stepKeepsIndexMatchingLastCompletedRow : Obligations.StepKeepsIndexMatchingLastCompletedRow := by
  refine fun s t => step_keeps (P := State.IndexMatches) (fun _ _ hs => hs) fun i s t hs h => ?_
  obtain ⟨_, ⟨_, rfl⟩ | ⟨c, k, _, _, rfl⟩⟩ := exec_cases h
  · exact indexMatches_endedBy hs fun _ => rfl
  · exact indexMatches_endedBy hs fun t => last_foldl_see_failedRowEvents t _ k

end Sys2Proof.Machine

/-! PROOFS. The encoding (spec/30_encoding.md R72 to R80): the decoder said once for each OPC, its round trip with the
encoder in both directions, the words it refuses, and the assembler's words. -/
namespace Sys2Proof

/-! The decoder, one equation for each OPC (R74, R76). -/

theorem decodeWord_of_opc_one {w : CommandWord} (h : opcField w = 0x1#4) :
    decodeWord w = if w.extractLsb' 1 59 = 0#59 then .ok (.setDir (Dir.ofBit (w.getLsbD 0)))
      else .error .setDirReservedBits :=
  if_pos h

theorem decodeWord_of_opc_two {w : CommandWord} (h : opcField w = 0x2#4) :
    decodeWord w = if w.extractLsb' 0 60 = 0#60 then .ok .step else .error .stepReservedBits := by
  rw [decodeWord, if_neg (by rw [h]; decide), if_pos h]

theorem decodeWord_of_opc_three {w : CommandWord} (h : opcField w = 0x3#4) :
    decodeWord w = .ok (.stepFor (nField w) (ivlField w)) := by
  rw [decodeWord, if_neg (by rw [h]; decide), if_neg (by rw [h]; decide), if_pos h]

theorem decodeWord_of_other_opc {w : CommandWord} (h1 : opcField w ≠ 0x1#4) (h2 : opcField w ≠ 0x2#4)
    (h3 : opcField w ≠ 0x3#4) : decodeWord w = .error .illegalOpcode := by
  rw [decodeWord, if_neg h1, if_neg h2, if_neg h3]

/-! The fields of an encoded STEPFOR. -/

theorem nField_encode_stepFor (n : BitVec 32) (ivl : BitVec 28) : nField (encode (.stepFor n ivl)) = n := by
  apply BitVec.eq_of_toNat_eq
  rw [nField_toNat, encode_stepFor_toNat]
  omega

theorem ivlField_encode_stepFor (n : BitVec 32) (ivl : BitVec 28) : ivlField (encode (.stepFor n ivl)) = ivl := by
  apply BitVec.eq_of_toNat_eq
  rw [ivlField_toNat, encode_stepFor_toNat]
  omega

/-- The decoder takes each command's word back to the command. -/
theorem decodeWord_encode (i : Instr) : decodeWord (encode i) = .ok i := by
  cases i with
  | setDir d => cases d <;> decide
  | step => decide
  | stepFor n ivl =>
    rw [decodeWord_of_opc_three (Laws.EncodedOpcode.stepFor n ivl), nField_encode_stepFor, ivlField_encode_stepFor]

/-- Settles O46: the word decodes to its command, and its bytes spell the word. -/
theorem decodeOfEncodeIsTheCommand : Obligations.DecodeOfEncodeIsTheCommand :=
  fun i => ⟨decodeWord_encode i, by rw [decodeBytes_wordBytes, decodeWord_encode]⟩

/-- Everything a word that decodes can be. -/
theorem decodeWord_ok_cases {w : CommandWord} {i : Instr} (h : decodeWord w = .ok i) :
    (opcField w = 0x1#4 ∧ w.extractLsb' 1 59 = 0#59 ∧ i = .setDir (Dir.ofBit (w.getLsbD 0))) ∨
    (opcField w = 0x2#4 ∧ w.extractLsb' 0 60 = 0#60 ∧ i = .step) ∨
    (opcField w = 0x3#4 ∧ i = .stepFor (nField w) (ivlField w)) := by
  unfold decodeWord at h
  split at h
  · split at h
    · cases h; exact .inl ⟨‹_›, ‹_›, rfl⟩
    · cases h
  · split at h
    · split at h
      · cases h; exact .inr (.inl ⟨‹_›, ‹_›, rfl⟩)
      · cases h
    · split at h
      · cases h; exact .inr (.inr ⟨‹_›, rfl⟩)
      · cases h

/-- A SETDIR's word as a number. -/
theorem encode_setDir_toNat (b : Bool) : (encode (.setDir (Dir.ofBit b))).toNat = 2 ^ 60 + b.toNat := by
  cases b <;> rfl

/-- A word's lowest bit as a number. -/
theorem getLsbD_zero_toNat (w : CommandWord) : (w.getLsbD 0).toNat = w.toNat % 2 := by
  rw [BitVec.getLsbD, Nat.toNat_testBit, Nat.pow_zero, Nat.div_one]

/-- The must-be-zero bits of a SETDIR word, said of the word. -/
theorem setDirReserved_eq_zero_iff (w : CommandWord) : w.extractLsb' 1 59 = 0#59 ↔ w.toNat / 2 % 2 ^ 59 = 0 := by
  rw [← BitVec.toNat_inj, BitVec.extractLsb'_toNat, Nat.shiftRight_eq_div_pow]
  rfl

/-- The must-be-zero bits of a STEP word, said of the word. -/
theorem stepReserved_eq_zero_iff (w : CommandWord) : w.extractLsb' 0 60 = 0#60 ↔ w.toNat % 2 ^ 60 = 0 := by
  rw [← BitVec.toNat_inj, BitVec.extractLsb'_toNat, Nat.shiftRight_zero]
  rfl

/-- Settles O47: a decoded word's fields, as numbers, leave no bit of the word open. -/
theorem encodeOfDecodeIsTheWord : Obligations.EncodeOfDecodeIsTheWord := by
  intro w i h
  apply BitVec.eq_of_toNat_eq
  obtain ⟨hopc, hzero, rfl⟩ | ⟨hopc, hzero, rfl⟩ | ⟨hopc, rfl⟩ := decodeWord_ok_cases h
  · rw [opcField_eq_iff w (k := 1) (by omega)] at hopc
    rw [setDirReserved_eq_zero_iff] at hzero
    rw [encode_setDir_toNat, getLsbD_zero_toNat]
    omega
  · rw [opcField_eq_iff w (k := 2) (by omega)] at hopc
    rw [stepReserved_eq_zero_iff] at hzero
    have hword : (encode .step).toNat = 2 * 2 ^ 60 := rfl
    omega
  · rw [opcField_eq_iff w (k := 3) (by omega)] at hopc
    rw [encode_stepFor_toNat, nField_toNat, ivlField_toNat]
    omega

/-- The words that are no command (R76). -/
theorem decodeWord_error_iff (w : CommandWord) :
    (∃ why, decodeWord w = .error why) ↔
      (opcField w ≠ 0x1#4 ∧ opcField w ≠ 0x2#4 ∧ opcField w ≠ 0x3#4) ∨
      (opcField w = 0x1#4 ∧ w.extractLsb' 1 59 ≠ 0#59) ∨
      (opcField w = 0x2#4 ∧ w.extractLsb' 0 60 ≠ 0#60) := by
  by_cases h1 : opcField w = 0x1#4
  · rw [decodeWord_of_opc_one h1]
    split <;> simp [*]
  by_cases h2 : opcField w = 0x2#4
  · rw [decodeWord_of_opc_two h2]
    split <;> simp [*]
  by_cases h3 : opcField w = 0x3#4
  · simp [decodeWord_of_opc_three h3, h3]
  · simp [decodeWord_of_other_opc h1 h2 h3, h1, h2, h3]

/-- Bytes that are no whole 64-bit unit are no command (R57). -/
theorem decodeBytes_of_length_ne {bytes : List Byte} (h : bytes.length ≠ 8) :
    decodeBytes bytes = .error .partialWord :=
  if_neg h

/-- Settles O50: closed words, decoded. -/
theorem knownWordsDecode : Obligations.KnownWordsDecode := by
  unfold Obligations.KnownWordsDecode
  decide

/-- The range check of a STEPFOR line (R80). -/
theorem wellFormed_stepfor_iff (n interval : Nat) :
    AsmLine.wellFormed (.stepfor n interval) = true ↔ n < 2 ^ 32 ∧ interval < 2 ^ 28 := by
  rw [AsmLine.wellFormed, Bool.and_eq_true, decide_eq_true_iff, decide_eq_true_iff]

/-- A STEPFOR line whose literals fit their fields is the command of its literals. -/
theorem toInstr_stepfor {n interval : Nat} (hn : n < 2 ^ 32) (hi : interval < 2 ^ 28) :
    AsmLine.toInstr (.stepfor n interval) = some (.stepFor (BitVec.ofNat 32 n) (BitVec.ofNat 28 interval)) :=
  if_pos ((wellFormed_stepfor_iff n interval).mpr ⟨hn, hi⟩)

/-- A STEPFOR line with a literal too wide for its field is rejected. -/
theorem toInstr_stepfor_wide {n interval : Nat} (h : 2 ^ 32 ≤ n ∨ 2 ^ 28 ≤ interval) :
    AsmLine.toInstr (.stepfor n interval) = none :=
  if_neg (by rw [wellFormed_stepfor_iff]; omega)

/-- The word of a STEPFOR whose operands are given as numbers that fit. -/
theorem encode_stepFor_ofNat {n interval : Nat} (hn : n < 2 ^ 32) (hi : interval < 2 ^ 28) :
    encode (.stepFor (BitVec.ofNat 32 n) (BitVec.ofNat 28 interval)) =
      BitVec.ofNat 64 (0x3000000000000000 + interval * 2 ^ 32 + n) := by
  apply BitVec.eq_of_toNat_eq
  simp only [encode_stepFor_toNat, BitVec.toNat_ofNat]
  omega

/-- Settles O51: three closed words, and the two sides of the range check. -/
theorem assemblerWordsAndRanges : Obligations.AssemblerWordsAndRanges := by
  refine ⟨rfl, rfl, rfl, fun n interval => ⟨fun hn hi => ?_, fun h => ?_⟩⟩
  · rw [assemble, toInstr_stepfor hn hi, Option.map_some, encode_stepFor_ofNat hn hi]
  · rw [assemble, toInstr_stepfor_wide h, Option.map_none]

end Sys2Proof

/-! PROOFS. What a step makes of the oldest request (spec/10_state.md R33, spec/70_reset_and_hazards.md R231, R240), and
what is refused (spec/30_encoding.md R76, spec/20_memory.md R57, spec/93_implementation_defined.md I24). -/
namespace Sys2Proof.Machine

/-- A step serves the oldest request. -/
theorem step_of_inbox_cons {s : State} {q : Request} {rest : List Request} (h : s.inbox = q :: rest) :
    step s = serve q { s with inbox := rest } := by
  rw [step, serveInbox, h]

/-- With nothing presented a step is the idle block's. -/
theorem step_of_inbox_nil {s : State} (h : s.inbox = []) : step s = idle s := by
  rw [step, serveInbox, h]

/-- Bytes that decode are the command they decode to. -/
theorem serve_of_decode_ok {bytes : List Byte} {i : Instr} (h : decodeBytes bytes = .ok i) (s : State) :
    serve (.command bytes) s = exec i s := by
  rw [serve, h]

/-- Bytes that are no command are refused, with the decoder's reason. -/
theorem serve_of_decode_error {bytes : List Byte} {why : DecodeError} (h : decodeBytes bytes = .error why) (s : State) :
    serve (.command bytes) s = .refused (.rejectedWord why) := by
  rw [serve, h]

/-- Settles O48: the decoder's own branches, and the bytes of a word spell it. -/
theorem illegalWordsAreRefused : Obligations.IllegalWordsAreRefused := by
  refine fun w => ⟨decodeWord_error_iff w, fun why s rest hwhy hinbox => ?_⟩
  rw [step_of_inbox_cons hinbox, serve_of_decode_error (by rw [decodeBytes_wordBytes, hwhy])]

/-- Settles O49: the length is checked before the word is. -/
theorem partialWordsAreRefused : Obligations.PartialWordsAreRefused := by
  refine fun bytes hlen => ⟨decodeBytes_of_length_ne hlen, fun s rest hinbox => ?_⟩
  rw [step_of_inbox_cons hinbox, serve_of_decode_error (decodeBytes_of_length_ne hlen)]

/-- A table word that is read as a command comes as bytes that decode to it. -/
theorem decodeBytes_of_decodeTableWord {nbits w : Nat} {i : Instr} (h : decodeTableWord nbits w = some i) :
    decodeBytes (tableBytes nbits w) = .ok i := by
  rw [decodeTableWord] at h
  cases hd : decodeBytes (tableBytes nbits w) with
  | error why => rw [hd] at h; cases h
  | ok j => rw [hd] at h; cases h; rfl

/-- Settles O44: serving a request that decodes, and the request `withFetchWord` puts in front. -/
theorem stepRunsTheDecodedCommand : Obligations.StepRunsTheDecodedCommand := by
  refine ⟨fun s bytes rest i hinbox hdecode => ?_, fun s w i hdecode => ?_⟩
  · rw [step_of_inbox_cons hinbox, serve_of_decode_ok hdecode]
  · rw [step_of_inbox_cons (s := s.withFetchWord 64 w) rfl, tableRequest,
      serve_of_decode_ok (decodeBytes_of_decodeTableWord hdecode)]
    rfl

/-- Every command is a body under one acceptance check. -/
theorem exec_eq_accept (i : Instr) : ∃ body, ∀ s, exec i s = accept s body := by
  cases i <;> simp only [exec, execSetDir, execStep, execStepFor] <;> exact ⟨_, fun _ => rfl⟩

/-- Every command is refused while BUSY (R240). -/
theorem exec_of_busy {s : State} (h : s.busy = true) (i : Instr) : exec i s = .refused .commandWhileBusy := by
  obtain ⟨body, hbody⟩ := exec_eq_accept i
  rw [hbody, accept, if_pos h]

/-- Settles O32: acceptance looks at BUSY first. -/
theorem commandWhileBusyIsRefused : Obligations.CommandWhileBusyIsRefused := fun i _ h => exec_of_busy h i

/-- Every command is refused with PHASE outside the pattern (I24). -/
theorem exec_of_phaseOutOfRange {s : State} (hbusy : s.busy = false) (h : s.pattern.length ≤ s.phase) (i : Instr) :
    exec i s = .refused .phaseOutOfRange := by
  obtain ⟨body, hbody⟩ := exec_eq_accept i
  rw [hbody, accept, if_neg (by simp [hbusy]), if_neg (Nat.not_lt.mpr h)]

/-- The idle block is refused with PHASE outside the pattern (I24). -/
theorem idle_of_phaseOutOfRange {s : State} (hbusy : s.busy = false) (h : s.pattern.length ≤ s.phase) :
    idle s = .refused .phaseOutOfRange := by
  rw [idle, if_neg (by simp [hbusy]), if_neg (Nat.not_lt.mpr h)]

/-- A command that is not taken to a next state is refused: nothing faults. -/
theorem exec_refused_of_not_ready {s : State} (h : ¬ s.Ready) (i : Instr) : ∃ why, exec i s = .refused why := by
  by_cases hbusy : s.busy = true
  · exact ⟨_, exec_of_busy hbusy i⟩
  · rw [Bool.not_eq_true] at hbusy
    exact ⟨_, exec_of_phaseOutOfRange hbusy (Nat.not_lt.mp fun hlt => h ⟨hbusy, hlt⟩) i⟩

/-- So is every request. -/
theorem serve_refused_of_not_ready {s : State} (h : ¬ s.Ready) (q : Request) : ∃ why, serve q s = .refused why := by
  cases q with
  | construct hasTs stepInterval => exact ⟨_, rfl⟩
  | command bytes =>
    cases hd : decodeBytes bytes with
    | error why => exact ⟨_, serve_of_decode_error hd s⟩
    | ok i => rw [serve_of_decode_ok hd]; exact exec_refused_of_not_ready h i

/-- The idle block refuses to go on while BUSY (R246). -/
theorem idle_of_busy {s : State} (h : s.busy = true) : idle s = .refused .commandInFlight := if_pos h

/-- A ready block with nothing presented does nothing (R204). -/
theorem idle_of_ready {s : State} (h : s.Ready) : idle s = .next s := by
  rw [idle, if_neg (by simp [h.1]), if_pos h.2]

/-- Settles O33: every command checks PHASE, and so does the idle block; bad requests are refused in any state. -/
theorem phaseOutsideThePatternIsRefused : Obligations.PhaseOutsideThePatternIsRefused := by
  refine ⟨fun i s hbusy h => exec_of_phaseOutOfRange hbusy h i, fun s h => ⟨?_, fun hbusy hinbox => ?_⟩⟩
  · cases hinbox : s.inbox with
    | nil =>
      rw [step_of_inbox_nil hinbox]
      cases hbusy : s.busy with
      | true => exact ⟨_, idle_of_busy hbusy⟩
      | false => exact ⟨_, idle_of_phaseOutOfRange hbusy h⟩
    | cons q rest =>
      rw [step_of_inbox_cons hinbox]
      exact serve_refused_of_not_ready (s := { s with inbox := rest }) (fun hready => Nat.not_lt.mpr h hready.2) q
  · rw [step_of_inbox_nil hinbox, idle_of_phaseOutOfRange hbusy h]

/-- Settles O34: a construction is refused whatever the state is. -/
theorem secondConstructionIsRefused : Obligations.SecondConstructionIsRefused := by
  intro s hasTs stepInterval rest hinbox
  rw [step_of_inbox_cons hinbox]
  rfl

/-- Settles O45: the three branches of the idle block. -/
theorem nothingPresentedNothingDone : Obligations.NothingPresentedNothingDone := by
  intro s hinbox
  rw [step_of_inbox_nil hinbox]
  exact ⟨idle_of_ready, idle_of_busy, idle_of_phaseOutOfRange⟩

end Sys2Proof.Machine

/-! PROOFS. Construction (spec/70_reset_and_hazards.md R230, spec/10_state.md R31), the width of PHASE (spec/00_scope.md
R6), one line write (spec/20_memory.md R52, R53), and DELAY_MS (spec/43_speed_conversion.md R180 to R182). -/
namespace Sys2Proof.Machine

/-- A line of the block right after construction is UNKNOWN (D7). -/
theorem get_out_construct (p : Pattern) (hasTs : Bool) (stepInterval : Nat) (k : Line) :
    (State.construct p hasTs stepInterval).out.get k = none := by
  cases k <;> rfl

/-- Settles O1: each field is the one the construction writes. -/
theorem constructionLeavesTheResetState : Obligations.ConstructionLeavesTheResetState :=
  ⟨fun p hasTs stepInterval =>
    ⟨rfl, rfl, get_out_construct p hasTs stepInterval, rfl, rfl, rfl, rfl, rfl, rfl, rfl⟩, _, _, _, rfl⟩

/-- The construction is idle at index 0, which every pattern has (R31). -/
theorem inv_construct (p : Pattern) (hasTs : Bool) (stepInterval : Nat) :
    (State.construct p hasTs stepInterval).Inv :=
  ⟨rfl, lt_of_lt_of_le Nat.two_pos p.two_le_length, rfl, rfl⟩

/-- With no event every line is UNKNOWN, as the construction left it. -/
theorem linesAgree_construct (p : Pattern) (hasTs : Bool) (stepInterval : Nat) :
    (State.construct p hasTs stepInterval).LinesAgree :=
  get_out_construct p hasTs stepInterval

/-- With no event no row is completed, and PHASE is 0. -/
theorem indexMatches_construct (p : Pattern) (hasTs : Bool) (stepInterval : Nat) :
    (State.construct p hasTs stepInterval).IndexMatches :=
  rfl

/-- Settles O2: `State.reset` is one of the constructions. -/
theorem invariantsHoldAtReset : Obligations.InvariantsHoldAtReset :=
  ⟨fun p hasTs interval => ⟨inv_construct .., linesAgree_construct p hasTs interval, indexMatches_construct ..⟩,
    inv_construct .., linesAgree_construct _ _ _, indexMatches_construct ..⟩

/-- The check of the rows (R31). -/
theorem rowsWellFormed_iff (rows : List Row) : rowsWellFormed rows = true ↔ 2 ≤ rows.length :=
  decide_eq_true_iff

/-- Two rows or more are the rows of a pattern, and the construction is that pattern's. -/
theorem constructFromRows_of_two_le {rows : List Row} (h : 2 ≤ rows.length) (hasTs : Bool) (stepInterval : Nat) :
    ∃ p : Pattern, p.rows = rows ∧
      constructFromRows rows hasTs stepInterval = .ok (State.construct p hasTs stepInterval) := by
  match rows with
  | row0 :: row1 :: more => exact ⟨{ row0 := row0, row1 := row1, more := more }, rfl, rfl⟩
  | [_] | [] => exact absurd h (by simp)

/-- Fewer than two rows are refused. -/
theorem constructFromRows_of_lt_two {rows : List Row} (h : rows.length < 2) (hasTs : Bool) (stepInterval : Nat) :
    constructFromRows rows hasTs stepInterval = .error .patternTooShort := by
  match rows with
  | _ :: _ :: more => exact absurd h (by simp)
  | [_] | [] => rfl

/-- Settles O3: the check is that there are two rows, and a pattern is made of exactly such a list. -/
theorem constructionRefusesFewerThanTwoRows : Obligations.ConstructionRefusesFewerThanTwoRows := by
  refine fun rows hasTs stepInterval => ⟨fun h => ?_, fun h => ?_⟩
  · have hshort : ¬ 2 ≤ rows.length := by rw [← rowsWellFormed_iff, h]; decide
    exact constructFromRows_of_lt_two (Nat.not_le.mp hshort) hasTs stepInterval
  · exact constructFromRows_of_two_le ((rowsWellFormed_iff rows).mp h) hasTs stepInterval

/-- PHASE_BITS bits hold every index. -/
theorem length_le_two_pow_phaseBits (p : Pattern) : p.length ≤ 2 ^ p.phaseBits := by
  have hlog : p.length - 1 < 2 ^ p.phaseBits := Nat.lt_log2_self
  omega

/-- One bit less does not. -/
theorem two_pow_phaseBits_pred_lt_length (p : Pattern) : 2 ^ (p.phaseBits - 1) < p.length := by
  have hlen := p.two_le_length
  have hlog : 2 ^ (p.phaseBits - 1) ≤ p.length - 1 := Nat.log2_self_le (n := p.length - 1) (by omega)
  omega

/-- Settles O43: PHASE is below `L`, which lies between the two powers. -/
theorem phaseFitsItsRegister : Obligations.PhaseFitsItsRegister :=
  ⟨fun s ⟨_, hphase, _⟩ => lt_of_lt_of_le hphase (length_le_two_pow_phaseBits s.pattern),
    fun p => ⟨length_le_two_pow_phaseBits p, two_pow_phaseBits_pred_lt_length p⟩⟩

/-- The level after a write is known exactly if the write was answered `ok` (D10). -/
theorem levelAfter_eq_ite (v : Bool) (r : Answer) : levelAfter v r = if r = .ok then some v else none := by
  cases r <;> rfl

/-- Settles O36: OutWrite sets one line to the level after the answer, and adds one event and one answer. -/
theorem outWriteMovesOneLine : Obligations.OutWriteMovesOneLine := by
  refine fun k v s => ⟨outWrite_answer k v s, ?_, fun j hj => ?_, rfl⟩
  · rw [outWrite_out, Lines.get_set_self, levelAfter_eq_ite]
  · rw [outWrite_out, Lines.get_set_of_ne _ _ hj]

/-- DELAY_MS of two divisors above 0 is the quotient. -/
theorem delayMs_of_pos {rpm spr : Nat} (hrpm : 1 ≤ rpm) (hspr : 1 ≤ spr) :
    delayMs rpm spr = .ok (60000 / (rpm * spr)) :=
  if_neg (by omega)

/-- DELAY_MS of a zero divisor is refused (R182). -/
theorem delayMs_of_zero {rpm spr : Nat} (h : rpm = 0 ∨ spr = 0) : delayMs rpm spr = .error .delayZeroDivisor :=
  if_pos h

/-- Settles O52: the quotient is 0 exactly above 60000, and so at least 1 exactly up to it. -/
theorem delayMsTruncates : Obligations.DelayMsTruncates := by
  refine ⟨fun rpm spr hrpm hspr => ?_, fun n => ⟨delayMs_of_zero (.inl rfl), delayMs_of_zero (.inr rfl)⟩, rfl, rfl⟩
  have hprod : 0 < rpm * spr := Nat.mul_pos hrpm hspr
  have hdelay := delayMs_of_pos hrpm hspr
  refine ⟨hdelay, ?_, ?_⟩
  · rw [hdelay, Except.ok.injEq, Nat.div_eq_zero_iff_lt hprod]
  · calc (∃ d, 1 ≤ d ∧ delayMs rpm spr = .ok d)
      _ ↔ 1 ≤ 60000 / (rpm * spr) := by simp [hdelay]
      _ ↔ rpm * spr ≤ 60000 := by rw [Nat.le_div_iff_mul_le hprod, Nat.one_mul]

end Sys2Proof.Machine

/-! PROOFS. What a command adds to the history (spec/20_memory.md R55, R60; spec/60_exceptions.md R200, R206, R209;
spec/42_step_for.md R151 to R153): which events they are and how many of each kind, and what else of the state a command
leaves alone. -/
namespace Sys2Proof.Machine

/-- An event of a step that goes on: a write answered `ok`, or a wait where there is a time source. -/
def Event.IsProgress (hasTs : Bool) (e : Event) : Prop :=
  (∃ k v, e = .evWrite k v .ok) ∨ (hasTs = true ∧ ∃ t, e = .evWait t)

theorem Event.IsProgress.isResult {hasTs : Bool} {e : Event} (h : e.IsProgress hasTs) : e.isResult = false := by
  obtain ⟨k, v, rfl⟩ | ⟨_, t, rfl⟩ := h <;> rfl

theorem Event.IsProgress.isFailedWrite {hasTs : Bool} {e : Event} (h : e.IsProgress hasTs) :
    e.isFailedWrite = false := by
  obtain ⟨k, v, rfl⟩ | ⟨_, t, rfl⟩ := h <;> rfl

theorem Event.IsProgress.isWait {hasTs : Bool} {e : Event} (h : e.IsProgress hasTs) (hts : hasTs = false) :
    e.isWait = false := by
  obtain ⟨k, v, rfl⟩ | ⟨htrue, _⟩ := h
  · rfl
  · rw [hts] at htrue; cases htrue

theorem isProgress_of_mem_rowEvents {hasTs : Bool} {e : Event} {row : Row} (h : e ∈ rowEvents row) :
    e.IsProgress hasTs := by
  obtain ⟨k, _, rfl⟩ := List.mem_map.mp h
  exact .inl ⟨k, _, rfl⟩

theorem isProgress_of_mem_waitEvents {hasTs : Bool} {e : Event} {t : Nat} (h : e ∈ waitEvents hasTs t) :
    e.IsProgress hasTs := by
  cases hasTs with
  | false => cases h
  | true => exact .inr ⟨rfl, t, List.mem_singleton.mp h⟩

theorem isProgress_of_mem_stepsEvents {s : State} {e : Event} {interval n c : Nat}
    (h : e ∈ s.stepsEvents interval n c) : e.IsProgress s.hasTs := by
  obtain ⟨i, _, hi⟩ := List.mem_flatMap.mp h
  simp only [State.countedStepEvents, List.mem_append] at hi
  obtain (hrow | hwait) | hgap := hi
  · exact isProgress_of_mem_rowEvents hrow
  · exact isProgress_of_mem_waitEvents hwait
  · split at hgap
    · cases hgap
    · exact isProgress_of_mem_waitEvents hgap

/-- A command adds events of steps that go on, at most one failed write, and its one result, the last of them. -/
theorem exec_events_cases {i : Instr} {s t : State} (h : exec i s = .next t) :
    (∃ body : List Event, t.events = s.events ++ body ++ [.evResult .ok] ∧ t.lastResult = some .ok ∧
      ∀ e ∈ body, e.IsProgress s.hasTs) ∨
    (∃ (body : List Event) (k : Line) (v : Bool),
      t.events = s.events ++ body ++ [.evWrite k v .fail, .evResult .outputFault] ∧
      t.lastResult = some .outputFault ∧ ∀ e ∈ body, e.IsProgress s.hasTs) := by
  obtain ⟨_, ⟨_, rfl⟩ | ⟨c, k, _, _, rfl⟩⟩ := exec_cases h
  · refine .inl ⟨s.stepsEvents i.interval i.steps i.steps, ?_, s.lastResult_okEnd i, fun e =>
      isProgress_of_mem_stepsEvents⟩
    simp [State.okEnd, State.endedBy]
  · refine .inr ⟨s.stepsEvents i.interval i.steps c ++ (rowEvents (s.rowAfter (c + 1))).take (k.number - 1), k,
      rowLevel (s.rowAfter (c + 1)) k, ?_, s.lastResult_faultEnd i c k, fun e he => ?_⟩
    · simp [State.faultEnd, State.endedBy, failedRowEvents]
    · obtain hsteps | hrow := List.mem_append.mp he
      · exact isProgress_of_mem_stepsEvents hsteps
      · exact isProgress_of_mem_rowEvents (List.mem_of_mem_take hrow)

/-- A command's one EvResult is the last of the events it adds; without a time source none of the others is a wait. -/
theorem exec_events_result_last {i : Instr} {s t : State} (h : exec i s = .next t) :
    ∃ (body : List Event) (r : Result), t.events = s.events ++ body ++ [.evResult r] ∧
      ∀ e ∈ body, e.isResult = false ∧ (s.hasTs = false → e.isWait = false) := by
  obtain ⟨body, hev, _, hbody⟩ | ⟨body, k, v, hev, _, hbody⟩ := exec_events_cases h
  · exact ⟨body, _, hev, fun e he => ⟨(hbody e he).isResult, (hbody e he).isWait⟩⟩
  · refine ⟨body ++ [.evWrite k v .fail], .outputFault, by simp [hev], fun e he => ?_⟩
    obtain hmem | hlast := List.mem_append.mp he
    · exact ⟨(hbody e hmem).isResult, (hbody e hmem).isWait⟩
    · obtain rfl := List.mem_singleton.mp hlast
      exact ⟨rfl, fun _ => rfl⟩

/-- The block is ready again after every command. -/
theorem ready_of_exec_next {i : Instr} {s t : State} (h : exec i s = .next t) : t.Ready := by
  obtain ⟨⟨hbusy, hphase⟩, ⟨_, rfl⟩ | ⟨c, k, _, _, rfl⟩⟩ := exec_cases h
  · exact ⟨hbusy, State.indexAfter_lt hphase _⟩
  · exact ⟨hbusy, State.indexAfter_lt hphase _⟩

/-- Settles O25: a ready block takes every command, which leaves it ready with its result recorded last. -/
theorem everyAcceptedCommandReturns : Obligations.EveryAcceptedCommandReturns := by
  intro i s hready
  obtain ⟨t, ht⟩ := exec_ready hready i
  obtain ⟨body, r, hev, hbody⟩ := exec_events_result_last ht
  exact ⟨t, body, r, ht, ready_of_exec_next ht, hev, fun e he => (hbody e he).1⟩

/-- Settles O38: no event before the result is a wait, and the result is none. -/
theorem noWaitWithoutTimeSource : Obligations.NoWaitWithoutTimeSource := by
  intro i s t hts h
  obtain ⟨body, r, hev, hbody⟩ := exec_events_result_last h
  refine ⟨body ++ [.evResult r], by rw [hev, List.append_assoc], fun e he => ?_⟩
  obtain hmem | hlast := List.mem_append.mp he
  · exact (hbody e hmem).2 hts
  · obtain rfl := List.mem_singleton.mp hlast
    rfl

/-- Settles O29: the events of a command that returns OUTPUT_FAULT, of which the last two are named. -/
theorem nothingFollowsAFailedWrite : Obligations.NothingFollowsAFailedWrite := by
  intro i s t h hres
  obtain ⟨_, _, hok, _⟩ | ⟨body, k, v, hev, _, hbody⟩ := exec_events_cases h
  · rw [hres] at hok; cases hok
  · exact ⟨body, k, v, hev, fun e he => (hbody e he).isFailedWrite⟩

/-- Settles O28: one of the two ends has a failed write and the result OUTPUT_FAULT, the other neither. -/
theorem outputFaultMeansAFailedWrite : Obligations.OutputFaultMeansAFailedWrite := by
  refine ⟨fun i s t new h hnew => ?_, rfl, rfl⟩
  obtain ⟨body, hev, hres, hbody⟩ | ⟨body, k, v, hev, hres, _⟩ := exec_events_cases h
  · have hnone : ∀ e ∈ new, e.isFailedWrite = false := fun e he => by
      rw [hev, List.append_assoc] at hnew
      rw [← List.append_cancel_left hnew] at he
      obtain hmem | hlast := List.mem_append.mp he
      · exact (hbody e hmem).isFailedWrite
      · obtain rfl := List.mem_singleton.mp hlast
        rfl
    simpa [hres] using hnone
  · have hsome : ∃ e ∈ new, e.isFailedWrite = true := by
      rw [hev, List.append_assoc] at hnew
      rw [← List.append_cancel_left hnew]
      exact ⟨.evWrite k v .fail, by simp, rfl⟩
    simpa [hres] using hsome

/-- Settles O31: a command leaves the block ready, and a failed STEP leaves what the target depends on as it was. -/
theorem afterAFaultEveryCommandIsAccepted : Obligations.AfterAFaultEveryCommandIsAccepted := by
  refine ⟨fun i s t h _ => ?_, fun s t h hres => ?_⟩
  · have hready := ready_of_exec_next h
    exact ⟨hready.1, exec_ready hready⟩
  · obtain ⟨k, o, _, _, rfl⟩ := execStep_outputFault_cases h hres
    exact ⟨rfl, rfl⟩

/-! How many events of each kind. -/

@[simp] theorem countEvents_nil (p : Event → Bool) : countEvents p [] = 0 := rfl

@[simp] theorem countEvents_isWrite_rowEvents (row : Row) : countEvents Event.isWrite (rowEvents row) = 4 := rfl

@[simp] theorem countEvents_isFailedWrite_rowEvents (row : Row) :
    countEvents Event.isFailedWrite (rowEvents row) = 0 := rfl

@[simp] theorem countEvents_isWait_rowEvents (row : Row) : countEvents Event.isWait (rowEvents row) = 0 := rfl

@[simp] theorem countEvents_isWrite_waitEvents (hasTs : Bool) (t : Nat) :
    countEvents Event.isWrite (waitEvents hasTs t) = 0 := by
  cases hasTs <;> rfl

@[simp] theorem countEvents_isFailedWrite_waitEvents (hasTs : Bool) (t : Nat) :
    countEvents Event.isFailedWrite (waitEvents hasTs t) = 0 := by
  cases hasTs <;> rfl

@[simp] theorem countEvents_isWait_waitEvents (hasTs : Bool) (t : Nat) :
    countEvents Event.isWait (waitEvents hasTs t) = if hasTs then 1 else 0 := by
  cases hasTs <;> rfl

@[simp] theorem countEvents_isFailedWrite_failedRowEvents (row : Row) (k : Line) :
    countEvents Event.isFailedWrite (failedRowEvents row k) = 1 := by
  cases k <;> rfl

@[simp] theorem countEvents_isWait_failedRowEvents (row : Row) (k : Line) :
    countEvents Event.isWait (failedRowEvents row k) = 0 := by
  cases k <;> rfl

@[simp] theorem countEvents_isWrite_evResult (r : Result) : countEvents Event.isWrite [.evResult r] = 0 := rfl

@[simp] theorem countEvents_isFailedWrite_evResult (r : Result) :
    countEvents Event.isFailedWrite [.evResult r] = 0 := rfl

@[simp] theorem countEvents_isWait_evResult (r : Result) : countEvents Event.isWait [.evResult r] = 0 := rfl

@[simp] theorem countEvents_completesRow_evResult (r : Result) : countEvents Event.completesRow [.evResult r] = 0 := rfl

/-- Events of which each counted step has `m` stand `m * c` times in `c` steps. -/
theorem countEvents_stepsEvents {p : Event → Bool} {s : State} {interval m : Nat}
    (h : ∀ i last, countEvents p (s.countedStepEvents interval i last) = m) (n c : Nat) :
    countEvents p (s.stepsEvents interval n c) = m * c := by
  induction c with
  | zero => rfl
  | succ c ih => rw [State.stepsEvents_succ, countEvents_append, ih, h, Nat.mul_succ]

/-- Each step has four writes. -/
@[simp] theorem countEvents_isWrite_stepsEvents (s : State) (interval n c : Nat) :
    countEvents Event.isWrite (s.stepsEvents interval n c) = 4 * c :=
  countEvents_stepsEvents (fun _ last => by cases last <;> simp [State.countedStepEvents]) n c

/-- No write of a completed step failed. -/
@[simp] theorem countEvents_isFailedWrite_stepsEvents (s : State) (interval n c : Nat) :
    countEvents Event.isFailedWrite (s.stepsEvents interval n c) = 0 := by
  rw [countEvents_stepsEvents (m := 0) (fun _ last => by cases last <;> simp [State.countedStepEvents]), Nat.zero_mul]

/-- The waits of a counted step: its own, and the interval wait unless it is the last. -/
theorem countEvents_isWait_countedStepEvents (s : State) (interval i : Nat) (last : Bool) :
    countEvents Event.isWait (s.countedStepEvents interval i last) =
      if s.hasTs then (if last then 1 else 2) else 0 := by
  cases last <;> cases hts : s.hasTs <;> simp [State.countedStepEvents, hts]

/-- Two waits for each of the steps that others follow. -/
theorem countEvents_isWait_stepsEvents_of_lt (s : State) (interval : Nat) {n c : Nat} (hc : c < n) :
    countEvents Event.isWait (s.stepsEvents interval n c) = if s.hasTs then 2 * c else 0 := by
  induction c with
  | zero => split <;> rfl
  | succ c ih =>
    have hlast : (c + 1 == n) = false := by simp; omega
    rw [State.stepsEvents_succ, countEvents_append, ih (by omega), countEvents_isWait_countedStepEvents, hlast]
    split <;> simp [Nat.mul_succ]

/-- One wait fewer for all the steps, since none follows the last. -/
theorem countEvents_isWait_stepsEvents_all (s : State) (interval n : Nat) :
    countEvents Event.isWait (s.stepsEvents interval n n) = if s.hasTs then 2 * n - 1 else 0 := by
  cases n with
  | zero => split <;> rfl
  | succ n =>
    rw [State.stepsEvents_succ, countEvents_append, countEvents_isWait_stepsEvents_of_lt s interval n.lt_succ_self,
      countEvents_isWait_countedStepEvents, beq_self_eq_true]
    split
    · rw [if_pos rfl]; omega
    · rfl

/-- Settles O20: the counts of all `n` steps, and of the `c` steps before the failing row. -/
theorem stepForWriteAndWaitCounts : Obligations.StepForWriteAndWaitCounts := by
  intro n ivl s t h
  obtain ⟨_, ⟨_, rfl⟩ | ⟨c, k, hc, _, rfl⟩⟩ := exec_cases h
  · refine ⟨_, rfl, fun _ => ?_, fun hres => ?_⟩
    · simp [Instr.steps, countEvents_isWait_stepsEvents_all]
    · rw [State.lastResult_okEnd] at hres; cases hres
  · refine ⟨_, rfl, fun hres => ?_, fun _ => ?_⟩
    · rw [State.lastResult_faultEnd] at hres; cases hres
    · have hlt : c < n.toNat := hc
      simp [Instr.steps, countEvents_isWait_stepsEvents_of_lt s _ hlt, hlt]

/-- The Output Bank answers as many writes as a command records. -/
theorem exec_bankCount {i : Instr} {s t : State} {new : List Event} (h : exec i s = .next t)
    (hnew : t.events = s.events ++ new) : t.bankCount = s.bankCount + countEvents Event.isWrite new := by
  obtain ⟨_, ⟨_, rfl⟩ | ⟨c, k, _, _, rfl⟩⟩ := exec_cases h
  · rw [eq_of_events_endedBy hnew]
    simp [State.okEnd, State.endedBy]
  · rw [eq_of_events_endedBy hnew]
    simp [State.faultEnd, State.endedBy]

/-- A command whose events complete no row leaves PHASE alone. -/
theorem exec_phase_of_no_row {i : Instr} {s t : State} {new : List Event} (h : exec i s = .next t)
    (hnew : t.events = s.events ++ new) (hrow : countEvents Event.completesRow new = 0) : t.phase = s.phase := by
  obtain ⟨_, ⟨_, rfl⟩ | ⟨c, k, _, _, rfl⟩⟩ := exec_cases h
  · have hsteps : i.steps = 0 := by simpa [eq_of_events_endedBy hnew] using hrow
    show s.indexAfter i.steps = s.phase
    rw [hsteps, State.indexAfter]
  · obtain rfl : c = 0 := by simpa [eq_of_events_endedBy hnew] using hrow
    rfl

/-- Events that do not write a line leave its level. -/
theorem levelFrom_of_not_mem {k : Line} {es : List Event} (h : ∀ v r, .evWrite k v r ∉ es) (level : Option Bool) :
    levelFrom k level es = level := by
  induction es generalizing level with
  | nil => rfl
  | cons e es ih =>
    have hhead : levelSeen k level e = level := by
      cases e with
      | evWrite k' v r =>
        refine if_neg fun hk => h v r ?_
        rw [hk]
        exact List.mem_cons_self
      | evWait t => rfl
      | evResult r => rfl
    show levelFrom k (levelSeen k level e) es = level
    rw [hhead, ih fun v r hmem => h v r (List.mem_cons_of_mem e hmem)]

/-- No command touches the Output Bank's script or the inbox. -/
theorem exec_environment {i : Instr} {s t : State} (h : exec i s = .next t) :
    t.bankScript = s.bankScript ∧ t.inbox = s.inbox := by
  obtain ⟨_, ⟨_, rfl⟩ | ⟨c, k, _, _, rfl⟩⟩ := exec_cases h <;> exact ⟨rfl, rfl⟩

/-- Only a STEPFOR touches its two registers. -/
theorem exec_stepForRegisters {i : Instr} {s t : State} (hi : ∀ n ivl, i ≠ .stepFor n ivl) (h : exec i s = .next t) :
    t.sfRem = s.sfRem ∧ t.sfIvl = s.sfIvl := by
  have hregs : i.sfRemAfter s.sfRem = s.sfRem ∧ i.sfIvlAfter s.sfIvl = s.sfIvl := by
    cases i with
    | setDir d => exact ⟨rfl, rfl⟩
    | step => exact ⟨rfl, rfl⟩
    | stepFor n ivl => exact absurd rfl (hi n ivl)
  obtain ⟨_, ⟨_, rfl⟩ | ⟨c, k, _, _, rfl⟩⟩ := exec_cases h <;> exact hregs

/-- Settles O26: each part of the frame is a fact of every command. -/
theorem commandFrame : Obligations.CommandFrame := by
  intro i s t h
  obtain ⟨new, hnew⟩ := exec_events h
  obtain ⟨hscript, hinbox⟩ := exec_environment h
  refine ⟨new, hnew, exec_sameConfiguration h, hscript, hinbox, (ready_of_exec_next h).1,
    fun hi => exec_stepForRegisters hi h, fun hi => exec_dir_of_ne_setDir hi h, exec_bankCount h hnew, fun k hk => ?_,
    exec_phase_of_no_row h hnew⟩
  rw [exec_line_eq_levelFrom h hnew, levelFrom_of_not_mem hk]

/-- Settles O42: a step does nothing with nothing presented, and else adds what one command adds. -/
theorem historyOnlyGrows : Obligations.HistoryOnlyGrows := by
  intro s t h
  obtain ⟨hinbox, _, rfl⟩ | ⟨bytes, rest, i, hinbox, _, he⟩ := step_cases h
  · exact ⟨[], (List.append_nil _).symm, rfl, fun _ => rfl, fun hne => absurd hinbox hne⟩
  · obtain ⟨body, r, hev, hbody⟩ := exec_events_result_last he
    rw [List.append_assoc] at hev
    have hcount := exec_bankCount (s := { s with inbox := rest }) he hev
    refine ⟨body ++ [.evResult r], hev, hcount, fun hnil => ?_, fun _ => ⟨body, r, rfl, fun e he => (hbody e he).1⟩⟩
    rw [hinbox] at hnil
    cases hnil

/-- Settles O13: a STEP writes four lines, or at least the one that fails; four of them move PHASE to another index. -/
theorem stepIsNeverANoOp : Obligations.StepIsNeverANoOp := by
  intro s t h
  obtain ⟨⟨_, hphase⟩, ⟨_, rfl⟩ | ⟨c, k, _, _, rfl⟩⟩ := exec_cases h
  · refine ⟨_, rfl, ?_, fun _ => ⟨?_, rfl, nextIndex_ne s.pattern.two_le_length hphase s.dir⟩⟩
    · simp [Instr.steps]
    · simp [Instr.steps]
  · refine ⟨_, rfl, ?_, fun hres => ?_⟩
    · have hk : 1 ≤ k.number := by cases k <;> decide
      simp only [countEvents_append, countEvents_isWrite_failedRowEvents]
      omega
    · rw [State.lastResult_faultEnd] at hres; cases hres

end Sys2Proof.Machine

/-! PROOFS. STEP and STEPFOR (spec/41_step.md R121 to R127, spec/42_step_for.md R150 to R157, spec/30_encoding.md R81,
spec/70_reset_and_hazards.md R233, R244): their whole next states, runs of STEPs, and the commands that are equal. -/
namespace Sys2Proof.Machine

/-- Settles O10: the next state of a STEP, and where its row stands. -/
theorem stepWithFourWritesOk : Obligations.StepWithFourWritesOk :=
  fun s hready hok => ⟨execStep_of_nextOk hready hok, rows_getElem?_targetIndex s⟩

/-- Settles O11: the next state of a STEP with a failing write. -/
theorem stepWithFailingWrite : Obligations.StepWithFailingWrite := by
  intro s k hready hfails
  obtain ⟨o, hexec, hget⟩ := execStep_of_failsAfter hready hfails
  exact ⟨_, hexec, rfl, hget⟩

/-- Settles O15: `m` STEPs end in the state after `m` successful steps. -/
theorem stepsWithAllWritesOkAllSucceed : Obligations.StepsWithAllWritesOkAllSucceed :=
  fun m s hready hok => ⟨_, execSteps_of_nextOk hready hok, okResults_afterOkSteps s m, rfl, rfl⟩

/-- Settles O7: the target index of the STEP is computed with the direction SETDIR left. -/
theorem directionGovernsTheNextStep : Obligations.DirectionGovernsTheNextStep := by
  intro d s t u hset hstep hres
  obtain ⟨_, rfl⟩ := execSetDir_cases hset
  exact (execStep_ok hstep hres).1

/-- Settles O16: each STEP leaves PHASE and the lines at its target, and the second target is not the first. -/
theorem twoSuccessfulStepsApplyDifferentRows : Obligations.TwoSuccessfulStepsApplyDifferentRows := by
  intro s t u hst hresT htu hresU
  obtain ⟨hphaseT, houtT⟩ := execStep_ok hst hresT
  obtain ⟨hphaseU, houtU⟩ := execStep_ok htu hresU
  obtain ⟨hpattern, _, _⟩ := exec_sameConfiguration hst
  have hdir : t.dir = s.dir := exec_dir_of_ne_setDir (fun _ => Instr.noConfusion) hst
  obtain ⟨_, hlt⟩ := ready_of_exec_next hst
  refine ⟨hphaseT, ?_, ?_, ?_, ?_⟩
  · rw [hphaseU, targetIndex, hpattern, hdir]
  · rw [hphaseU]
    exact (nextIndex_ne t.pattern.two_le_length hlt t.dir).symm
  · rw [hphaseT, rows_getElem?_targetIndex, houtT, Option.map_some]
  · rw [hphaseU, ← hpattern, rows_getElem?_targetIndex, houtU, Option.map_some]

/-- Commands of which the last ends in a next state: so did the others. -/
theorem execAll_concat_cases {is : List Instr} {i : Instr} {s t : State} (h : execAll (is ++ [i]) s = .next t) :
    ∃ u, execAll is s = .next u ∧ exec i u = .next t := by
  induction is generalizing s with
  | nil =>
    rw [List.nil_append, execAll] at h
    split at h
    case h_1 u hu => exact ⟨s, rfl, by rw [hu]; exact h⟩
    case h_2 | h_3 => cases h
  | cons j is ih =>
    rw [List.cons_append, execAll] at h
    split at h
    case h_1 v hv =>
      obtain ⟨u, hu, he⟩ := ih h
      exact ⟨u, by rw [execAll_cons hv, hu], he⟩
    case h_2 | h_3 => cases h

/-- The last of some STEPs. -/
theorem execSteps_succ_cases {m : Nat} {s t : State} (h : execSteps (m + 1) s = .next t) :
    ∃ u, execSteps m s = .next u ∧ exec .step u = .next t := by
  rw [execSteps, List.replicate_succ'] at h
  exact execAll_concat_cases h

/-- A STEP that fails records no OK result. -/
theorem okResults_failedStep (row : Row) (k : Line) :
    okResults (failedRowEvents row k ++ [.evResult .outputFault]) = 0 := by
  cases k <;> rfl

/-- OK results are counted in the parts of a history. -/
theorem okResults_append (es es' : List Event) : okResults (es ++ es') = okResults es + okResults es' :=
  countEvents_append _ es es'

/-- After `m` STEPs, `c` of them successful, PHASE is where `c` steps lead: a failed one leaves it alone. -/
theorem execSteps_cases {m : Nat} {s t : State} (h : execSteps m s = .next t) :
    ∃ c ≤ m, okResults t.events = okResults s.events + c ∧ t.phase = s.indexAfter c ∧ t.dir = s.dir ∧
      t.pattern = s.pattern := by
  induction m generalizing t with
  | zero => cases h; exact ⟨0, le_rfl, rfl, rfl, rfl, rfl⟩
  | succ m ih =>
    obtain ⟨u, hu, hstep⟩ := execSteps_succ_cases h
    obtain ⟨c, hc, hresults, hphase, hdir, hpattern⟩ := ih hu
    obtain ⟨_, ⟨_, rfl⟩ | ⟨k, o, _, _, rfl⟩⟩ := execStep_cases hstep
    · refine ⟨c + 1, Nat.succ_le_succ hc, ?_, ?_, hdir, hpattern⟩
      · have hone := okResults_okStepEvents u (targetRow u)
        rw [State.okStepEvents] at hone
        rw [okResults_append, hone, hresults, Nat.add_assoc]
      · show nextIndex u.pattern.length u.phase u.dir = s.indexAfter (c + 1)
        rw [hpattern, hphase, hdir, State.indexAfter]
    · refine ⟨c, Nat.le_succ_of_le hc, ?_, hphase, hdir, hpattern⟩
      rw [okResults_append, okResults_failedStep, hresults, Nat.add_zero]

/-- Settles O14: the index after `c` steps, in closed form for each direction. -/
theorem phaseCountsTheSuccessfulSteps : Obligations.PhaseCountsTheSuccessfulSteps := by
  intro m s t hready h
  obtain ⟨c, hc, hresults, hphase, _, _⟩ := execSteps_cases h
  refine ⟨c, hc, hresults, fun hd => ?_, fun hd => ?_⟩
  · rw [hphase, State.indexAfter_forward hready.2 hd]
  · rw [hphase, State.indexAfter_reverse hready.2 hd]

/-- A script that begins with `m` answers `ok` answers the first `m` writes. -/
theorem nextOk_of_bankScript {s : State} {m : Nat} {later : List Answer}
    (hscript : s.bankScript = List.replicate m .ok ++ later) (hcount : s.bankCount = 0) : s.NextOk m := by
  intro j hj
  simp [State.answerAt, hscript, hcount, List.getElem?_append_left, hj]

/-- The block after construction whose Output Bank answers the first four writes `ok`. -/
def firstWritesOk (p : Pattern) (hasTs : Bool) (stepInterval : Nat) (later : List Answer) : State :=
  { State.construct p hasTs stepInterval with bankScript := List.replicate 4 .ok ++ later }

/-- It is ready for a STEP that succeeds. -/
theorem firstWritesOk_ready_nextOk (p : Pattern) (hasTs : Bool) (stepInterval : Nat) (later : List Answer) :
    (firstWritesOk p hasTs stepInterval later).Ready ∧ (firstWritesOk p hasTs stepInterval later).NextOk 4 :=
  ⟨(inv_construct p hasTs stepInterval).imp_right And.left, nextOk_of_bankScript rfl rfl⟩

/-- A STEP that succeeds moves to its target index and applies the row there. -/
theorem execStep_applies_targetRow {s : State} {i : Nat} (hready : s.Ready) (hok : s.NextOk 4) (hi : targetIndex s = i) :
    ∃ t, exec .step s = .next t ∧ t.phase = i ∧ s.pattern.rows[i]?.map Lines.ofRow = some t.out := by
  refine ⟨_, execStep_of_nextOk hready hok, hi, ?_⟩
  rw [← hi, rows_getElem?_targetIndex, Option.map_some]

/-- Settles O8: from index 0 the target is index 1, or `L - 1` after SETDIR R. -/
theorem firstStepAfterResetAppliesNeighbourOfRowZero : Obligations.FirstStepAfterResetAppliesNeighbourOfRowZero := by
  intro p hasTs stepInterval later
  have hlen := p.two_le_length
  obtain ⟨hready, hok⟩ := firstWritesOk_ready_nextOk p hasTs stepInterval later
  constructor
  · have htarget : targetIndex (firstWritesOk p hasTs stepInterval later) = 1 :=
      (nextIndex_forward hready.2).trans (if_neg (show ¬ 0 = p.length - 1 by omega))
    obtain ⟨t, hstep, hphase, hrow⟩ := execStep_applies_targetRow hready hok htarget
    exact ⟨t, execAll_cons hstep [], hphase, (Option.some.inj hrow).symm⟩
  · have hset := execSetDir_ready hready .reverse
    have hreadyR := ready_of_exec_next hset
    obtain ⟨t, hstep, hphase, hrow⟩ := execStep_applies_targetRow hreadyR hok (nextIndex_reverse hreadyR.2)
    rw [List.getLast?_eq_getElem?]
    exact ⟨t, (execAll_cons hset _).trans (execAll_cons hstep []), hphase, hrow⟩

/-! STEPFOR. -/

/-- The lines after at least one step. -/
theorem linesAfter_of_ne_zero {s : State} {c : Nat} (hc : c ≠ 0) : s.linesAfter c = Lines.ofRow (s.rowAfter c) :=
  if_neg hc

/-- Settles O18: all `n` steps succeed, and the index after them in closed form. -/
theorem stepForWithAllWritesOk : Obligations.StepForWithAllWritesOk := by
  intro n ivl s hready hn hok
  refine ⟨?_, fun hd => State.indexAfter_forward hready.2 hd _, fun hd => State.indexAfter_reverse hready.2 hd _⟩
  have hlines : s.linesAfter n.toNat = Lines.ofRow (s.rowAfter n.toNat) := linesAfter_of_ne_zero (by omega)
  rw [exec_of_nextOk (i := .stepFor n ivl) hready hok, ← hlines]
  simp only [State.okEnd, State.endedBy, List.append_nil]
  rfl

/-- Settles O19: the first `j - 1` steps succeed and the next one fails. -/
theorem stepForWithFailingWrite : Obligations.StepForWithFailingWrite := by
  intro n ivl s j k hready hj hjn hfails
  obtain ⟨c, rfl⟩ := Nat.exists_eq_add_of_le' hj
  rw [Nat.add_sub_cancel] at hfails ⊢
  refine ⟨_, exec_of_failsAfter (i := .stepFor n ivl) hready (Nat.lt_of_succ_le hjn) hfails, ?_, fun l => ?_⟩
  · simp only [State.faultEnd, State.endedBy, countEvents_isWrite_failedRowEvents]
    rfl
  · simp only [State.faultEnd, State.endedBy, Lines.get_failRow, State.linesAfter, Nat.add_eq_right]

/-- Settles O21: no step is attempted, and the two registers were 0 before. -/
theorem stepForZeroOnlyAnswers : Obligations.StepForZeroOnlyAnswers := by
  intro ivl s ⟨hbusy, hphase, hrem, hivl⟩
  have hok : s.NextOk (4 * (Instr.stepFor 0#32 ivl).steps) := fun j hj => absurd hj j.not_lt_zero
  have hend : s.okEnd (.stepFor 0#32 ivl) =
      { s with sfRem := 0#32, sfIvl := 0#28, events := s.events ++ [.evResult .ok] } := rfl
  rw [exec_of_nextOk ⟨hbusy, hphase⟩ hok, hend, hrem, hivl]

/-- Settles O24: `L` steps lead back to the index they began at. -/
theorem stepForFullCycleReturnsToItsPhase : Obligations.StepForFullCycleReturnsToItsPhase := by
  intro n ivl s hready hn hok
  have hphase : s.indexAfter n.toNat = s.phase := by rw [hn, State.indexAfter_length hready.2]
  have hne : n.toNat ≠ 0 := by have := s.pattern.two_le_length; omega
  refine ⟨_, exec_of_nextOk (i := .stepFor n ivl) hready hok, hphase, s.lastResult_okEnd _, ?_⟩
  rw [← hphase, rows_getElem?_indexAfter hne, Option.map_some, ← linesAfter_of_ne_zero hne]
  rfl

/-- Two commands that attempt the same steps, with the same events, and leave the same in DIR, SF_REM and SF_IVL. -/
structure SameSteps (s : State) (i i' : Instr) : Prop where
  steps : i.steps = i'.steps
  dir : i.dirAfter s.dir = i'.dirAfter s.dir
  sfRem : i.sfRemAfter s.sfRem = i'.sfRemAfter s.sfRem
  sfIvl : i.sfIvlAfter s.sfIvl = i'.sfIvlAfter s.sfIvl
  events : ∀ c ≤ i.steps, s.stepsEvents i.interval i.steps c = s.stepsEvents i'.interval i'.steps c

/-- Such commands end alike. -/
theorem SameSteps.endedBy {s : State} {i i' : Instr} (h : SameSteps s i i') {c : Nat} (hc : c ≤ i.steps) (o : Lines)
    (tail : List Event) (r : Result) : s.endedBy i c o tail r = s.endedBy i' c o tail r := by
  simp only [State.endedBy, h.dir, h.sfRem, h.sfIvl, h.events c hc]

/-- Such commands have the same outcome on a ready block, whatever the Output Bank answers. -/
theorem SameSteps.exec_eq {s : State} {i i' : Instr} (h : SameSteps s i i') (hready : s.Ready) :
    exec i s = exec i' s := by
  obtain ⟨t, ht⟩ := exec_ready hready i
  obtain ⟨_, ⟨hok, rfl⟩ | ⟨c, k, hc, hfails, rfl⟩⟩ := exec_cases ht
  · rw [ht, exec_of_nextOk hready (h.steps ▸ hok), State.okEnd, State.okEnd, h.endedBy le_rfl, h.steps]
  · rw [ht, exec_of_failsAfter hready (h.steps ▸ hc) hfails, State.faultEnd, State.faultEnd, h.endedBy hc.le]

/-- On a block that is not ready all commands are refused alike. -/
theorem exec_eq_of_not_ready {s : State} (h : ¬ s.Ready) (i i' : Instr) : exec i s = exec i' s := by
  by_cases hbusy : s.busy = true
  · rw [exec_of_busy hbusy, exec_of_busy hbusy]
  · rw [Bool.not_eq_true] at hbusy
    have hphase : s.pattern.length ≤ s.phase := Nat.not_lt.mp fun hlt => h ⟨hbusy, hlt⟩
    rw [exec_of_phaseOutOfRange hbusy hphase, exec_of_phaseOutOfRange hbusy hphase]

/-- Settles O22: a single step has no interval wait, and the two registers were 0 before. -/
theorem stepForOneIsStep : Obligations.StepForOneIsStep := by
  intro ivl s ⟨hbusy, hphase, hrem, hivl⟩
  have hsame : SameSteps s (.stepFor 1#32 ivl) .step := by
    refine ⟨rfl, rfl, hrem.symm, hivl.symm, fun c hc => ?_⟩
    obtain rfl | rfl : c = 0 ∨ c = 1 := Nat.le_one_iff_eq_zero_or_eq_one.mp hc
    · rfl
    · exact (stepsEvents_one s _).trans (stepsEvents_one s _).symm
  exact hsame.exec_eq ⟨hbusy, hphase⟩

/-- Without a time source a step's events do not depend on the interval. -/
theorem stepsEvents_of_hasTs_false {s : State} (hts : s.hasTs = false) (a b n c : Nat) :
    s.stepsEvents a n c = s.stepsEvents b n c := by
  simp only [State.stepsEvents, State.countedStepEvents, waitEvents, hts]
  rfl

/-- Settles O23: the interval shows only in events that are not issued. -/
theorem stepForIgnoresIntervalWithoutTimeSource : Obligations.StepForIgnoresIntervalWithoutTimeSource := by
  intro n a b s hts
  by_cases hready : s.Ready
  · have hsame : SameSteps s (.stepFor n a) (.stepFor n b) :=
      ⟨rfl, rfl, rfl, rfl, fun c _ => stepsEvents_of_hasTs_false hts _ _ _ c⟩
    exact hsame.exec_eq hready
  · exact exec_eq_of_not_ready hready _ _

end Sys2Proof.Machine

/-! PROOFS. One event of a running command (spec/20_memory.md R59, spec/10_state.md R35, R36,
spec/70_reset_and_hazards.md R240; log 17): what it records, and that BUSY is 1 as long as the command runs. -/
namespace Sys2Proof.Machine

/-- A write of a running command records itself and goes on inside the command. -/
theorem Flight.writeLine_event (f : Flight) (k : Line) :
    ∃ v r, (f.writeLine k).st.events = f.st.events ++ [.evWrite k v r] ∧ (f.writeLine k).st.busy = f.st.busy ∧
      (f.writeLine k).pos ≠ none := by
  refine ⟨rowLevel (targetRow f.st) k, f.st.answerAt f.st.bankCount, ?_⟩
  cases hans : f.st.answerAt f.st.bankCount with
  | fail => simp [Flight.writeLine_fail k hans]
  | ok =>
    rw [Flight.writeLine_ok k hans]
    cases hk : k.following with
    | some k' => exact ⟨rfl, rfl, by simp⟩
    | none =>
      dsimp only
      split
      · exact ⟨rfl, rfl, by simp⟩
      · exact Flight.stepDone_events _

/-- An event before the last is no EvResult, and leaves the command running with BUSY as it was. -/
def Flight.GoesOn (f g : Flight) : Prop :=
  ∃ e, g.st.events = f.st.events ++ [e] ∧ e.isResult = false ∧ g.st.busy = f.st.busy ∧ g.pos ≠ none

/-- One event of a running command: it goes on, or answers. -/
theorem Flight.advance_cases {f : Flight} (h : f.pos ≠ none) :
    f.GoesOn f.advance ∨ ∃ r, f.advance.st.events = f.st.events ++ [.evResult r] ∧ f.advance.pos = none := by
  unfold Flight.advance
  split
  · exact absurd ‹_› h
  case h_2 k _ =>
    obtain ⟨v, r, hevents, hbusy, hpos⟩ := f.writeLine_event k
    exact .inl ⟨_, hevents, rfl, hbusy, hpos⟩
  case h_3 =>
    obtain ⟨hevents, hbusy, hpos⟩ := Flight.stepDone_events { f with st := wait f.st.stepInterval f.st }
    exact .inl ⟨_, hevents, rfl, hbusy, hpos⟩
  case h_4 => exact .inl ⟨_, rfl, rfl, rfl, by simp⟩
  case h_5 r _ => exact .inr ⟨r, by split <;> rfl, rfl⟩

/-- Settles O54: the two kinds of event. -/
theorem oneEventAtATime : Obligations.OneEventAtATime := by
  intro f hf
  obtain ⟨e, hevents, hresult, _, hpos⟩ | ⟨r, hevents, hpos⟩ := Flight.advance_cases hf
  · exact ⟨e, hevents, by simp [hresult, hpos]⟩
  · exact ⟨.evResult r, hevents, by simp [hpos, Event.isResult]⟩

/-- BUSY is 1 as long as a command runs (R35). -/
def Flight.BusyWhileRunning (f : Flight) : Prop := f.pos ≠ none → f.st.busy = true

/-- Each event keeps BUSY 1 while the command runs. -/
theorem Flight.BusyWhileRunning.advance {f : Flight} (h : f.BusyWhileRunning) : f.advance.BusyWhileRunning := by
  intro hpos
  by_cases hf : f.pos = none
  · rw [Flight.advance_idle hf] at hpos ⊢
    exact h hpos
  · obtain ⟨_, _, _, hbusy, _⟩ | ⟨_, _, hnone⟩ := Flight.advance_cases hf
    · rw [hbusy, h hf]
    · exact absurd hnone hpos

/-- An accepted command has BUSY 1 at each of its events. -/
theorem busyWhileRunning_run_launch (i : Instr) (s : State) (j : Nat) : ((launch i s).run j).BusyWhileRunning := by
  have hrun : ∀ f : Flight, f.BusyWhileRunning → (f.run j).BusyWhileRunning := by
    induction j with
    | zero => exact fun _ h => h
    | succ j ih => exact fun f h => ih f.advance h.advance
  exact hrun _ fun _ => by cases i <;> rfl

/-- Settles O55: BUSY is 1, so the two views refuse alike, each request under the name `serve` gives it. -/
theorem runningCommandAcceptsNothing : Obligations.RunningCommandAcceptsNothing := by
  intro i s j q hpos
  have hbusy := busyWhileRunning_run_launch i s j hpos
  obtain ⟨why, hoffer, hserve⟩ := Flight.offer_of_busy hbusy q
  refine ⟨why, hoffer, hserve, ?_, ?_, ?_⟩
  · rintro hasTs stepInterval rfl
    rw [serve, if_pos hbusy] at hserve
    cases hserve; rfl
  · rintro bytes i' rfl hd
    rw [serve_of_decode_ok hd, exec_of_busy hbusy] at hserve
    cases hserve; rfl
  · rintro bytes e rfl hd
    rw [serve_of_decode_error hd] at hserve
    cases hserve; rfl

end Sys2Proof.Machine

/-! PROOFS. The event-by-event view ends where `exec` does (spec/20_memory.md R59, R60; log 17): the events of a row are
`writeLines`, those of a step `doStep`, those of a STEPFOR `stepForLoop`. -/
namespace Sys2Proof.Machine

/-- A running command that returns next, with the result and the state of `p`. -/
def Flight.answering (counted : Bool) (p : Result × State) : Flight :=
  { st := p.2, counted := counted, pos := some (.answer p.1) }

/-- A running command about to write line `k`. -/
def Flight.atLine (s : State) (counted : Bool) (k : Line) : Flight :=
  { st := s, counted := counted, pos := some (.line k) }

/-- What follows a row's writes: the result after a failure, else PHASE moves to `index` and the step's wait is next. -/
def Flight.afterRow (index : Nat) (counted : Bool) : Result × State → Flight
  | (.outputFault, s) => Flight.answering counted (.outputFault, s)
  | (.ok, s) =>
    let s' := { s with phase := index }
    if s'.hasTs then { st := s', counted := counted, pos := some .pace }
    else Flight.stepDone { st := s', counted := counted, pos := none }

/-- What follows a step: the result after a failure, else `stepDone`. -/
def Flight.afterStep (counted : Bool) : Result × State → Flight
  | (.outputFault, s) => Flight.answering counted (.outputFault, s)
  | (.ok, s) => Flight.stepDone { st := s, counted := counted, pos := none }

/-- From line `k` on the events are the writes of the lines `ks`, one each, up to the first that fails. -/
def RowRuns (k : Line) (ks : List Line) : Prop :=
  ∀ (s : State) (counted : Bool), ∃ m ≤ ks.length,
    (Flight.atLine s counted k).run m = Flight.afterRow (targetIndex s) counted (writeLines (targetRow s) ks s)

/-- A line whose write fails is the last one written. -/
theorem run_atLine_fail {s : State} (counted : Bool) (k : Line) (ks : List Line)
    (h : s.answerAt s.bankCount = .fail) :
    (Flight.atLine s counted k).run 1 =
      Flight.afterRow (targetIndex s) counted (writeLines (targetRow s) (k :: ks) s) := by
  rw [writeLines_cons_fail _ _ _ h]
  exact Flight.writeLine_fail (f := Flight.atLine s counted k) k h

/-- IN4 is the last line of a row. -/
theorem rowRuns_in4 : RowRuns .in4 [.in4] := by
  intro s counted
  refine ⟨1, le_rfl, ?_⟩
  cases hans : s.answerAt s.bankCount with
  | fail => exact run_atLine_fail counted .in4 [] hans
  | ok =>
    rw [writeLines_cons_ok _ _ _ hans]
    exact Flight.writeLine_ok (f := Flight.atLine s counted .in4) .in4 hans

/-- Before that each line is followed by the next. -/
theorem RowRuns.cons {k k' : Line} {ks : List Line} (hk : k.following = some k') (h : RowRuns k' ks) :
    RowRuns k (k :: ks) := by
  intro s counted
  cases hans : s.answerAt s.bankCount with
  | fail => exact ⟨1, Nat.succ_le_succ (Nat.zero_le _), run_atLine_fail counted k ks hans⟩
  | ok =>
    have hadvance := Flight.writeLine_ok (f := Flight.atLine s counted k) k hans
    rw [hk] at hadvance
    obtain ⟨m, hm, hrun⟩ := h { s with
      out := s.out.set k (some (rowLevel (targetRow s) k))
      bankCount := s.bankCount + 1
      events := s.events ++ [.evWrite k (rowLevel (targetRow s) k) .ok] } counted
    refine ⟨m + 1, Nat.succ_le_succ hm, ?_⟩
    rw [writeLines_cons_ok _ _ _ hans, Flight.run_succ]
    exact (congrArg (Flight.run m) hadvance).trans hrun

/-- The four writes of a step. -/
theorem rowRuns_all : RowRuns .in1 Line.all :=
  .cons rfl (.cons rfl (.cons rfl rowRuns_in4))

/-- A row's writes leave STEP_INTERVAL alone. -/
theorem writeLines_stepInterval (row : Row) (ks : List Line) (s : State) :
    (writeLines row ks s).2.stepInterval = s.stepInterval := by
  induction ks generalizing s with
  | nil => rfl
  | cons k ks ih =>
    cases hans : s.answerAt s.bankCount with
    | ok => rw [writeLines_cons_ok _ _ _ hans, ih]
    | fail => rw [writeLines_cons_fail _ _ _ hans]

/-- The events of a step: its writes, and its wait if it succeeded. -/
theorem run_step (s : State) (counted : Bool) :
    ∃ m ≤ 5, (Flight.atLine s counted .in1).run m = Flight.afterStep counted (doStep s) := by
  obtain ⟨m, hm, hrun⟩ := rowRuns_all s counted
  have hm4 : m ≤ 4 := hm
  have hinterval := writeLines_stepInterval (targetRow s) Line.all s
  unfold doStep
  generalize writeLines (targetRow s) Line.all s = p at hrun hinterval
  obtain ⟨r, s'⟩ := p
  cases r with
  | outputFault => exact ⟨m, by omega, hrun⟩
  | ok =>
    cases hts : s'.hasTs with
    | false =>
      refine ⟨m, by omega, ?_⟩
      simp [hrun, Flight.afterRow, Flight.afterStep, waitIfTimed, hts]
    | true =>
      refine ⟨m + 1, by omega, ?_⟩
      rw [Flight.run_add, hrun, ← hinterval]
      simp only [Flight.afterRow, Flight.afterStep, waitIfTimed, hts, if_true]
      rfl

/-- What follows the last step of a STEPFOR. -/
theorem stepDone_counted_last {s : State} {pos : Option Position} (h : s.sfRem - 1#32 = 0#32) :
    Flight.stepDone { st := s, counted := true, pos := pos } = Flight.answering true (.ok, afterCountedStep s) := by
  simp [Flight.stepDone, afterCountedStep, Flight.answering, h]

/-- What follows any other: the interval wait, if there is a time source, and the next step. -/
theorem run_stepDone_counted {s : State} {pos : Option Position} (h : s.sfRem - 1#32 ≠ 0#32) :
    ∃ m ≤ 1, (Flight.stepDone { st := s, counted := true, pos := pos }).run m =
      Flight.atLine (afterCountedStep s) true .in1 := by
  cases hts : s.hasTs with
  | false =>
    refine ⟨0, Nat.zero_le 1, ?_⟩
    simp [Flight.run, Flight.stepDone, afterCountedStep, Flight.atLine, waitIfTimed, h, hts]
  | true =>
    refine ⟨1, le_rfl, ?_⟩
    simp [Flight.run, Flight.stepDone, Flight.advance, afterCountedStep, Flight.atLine, waitIfTimed, h, hts]

/-- A step leaves SF_REM alone. -/
theorem doStep_sfRem (s : State) : (doStep s).2.sfRem = s.sfRem := by
  obtain hok | ⟨k, hfails⟩ := nextOk_or_fails s
  · rw [doStep_ok hok]
  · obtain ⟨o, hstep, _⟩ := doStep_fail hfails
    rw [hstep]

/-- Counting a step takes one from SF_REM. -/
theorem afterCountedStep_sfRem (s : State) : (afterCountedStep s).sfRem = s.sfRem - 1#32 := by
  unfold afterCountedStep
  dsimp only
  split
  · rfl
  · rw [waitIfTimed_sfRem]

/-- One taken from a count above 0. -/
theorem toNat_sub_one {x : BitVec 32} {m : Nat} (h : x.toNat = m + 1) : (x - 1#32).toNat = m := by
  have hx := x.isLt
  rw [BitVec.toNat_sub, BitVec.toNat_ofNat]
  omega

/-- The loop ends at a step that fails. -/
theorem stepForLoop_succ_of_fault {fuel : Nat} {s s' : State} (hrem : s.sfRem ≠ 0#32)
    (hstep : doStep s = (.outputFault, s')) : stepForLoop (fuel + 1) s = (.outputFault, s') := by
  rw [stepForLoop, if_neg hrem, hstep]

/-- The loop goes on after a step that succeeded. -/
theorem stepForLoop_succ_of_ok {fuel : Nat} {s s' : State} (hrem : s.sfRem ≠ 0#32) (hstep : doStep s = (.ok, s')) :
    stepForLoop (fuel + 1) s = stepForLoop fuel (afterCountedStep s') := by
  rw [stepForLoop, if_neg hrem, hstep]

/-- The events of a STEPFOR's steps: six each at most. -/
theorem run_stepForLoop (fuel : Nat) {s : State} (hrem : s.sfRem.toNat = fuel + 1) :
    ∃ m ≤ 6 * (fuel + 1),
      (Flight.atLine s true .in1).run m = Flight.answering true (stepForLoop (fuel + 1) s) := by
  have hne : s.sfRem ≠ 0#32 := fun h => by simp [h] at hrem
  obtain ⟨m, hm, hrun⟩ := run_step s true
  have hkept := doStep_sfRem s
  rcases hstep : doStep s with ⟨r, s'⟩
  rw [hstep] at hrun hkept
  have hleft : (s'.sfRem - 1#32).toNat = fuel := by rw [show s'.sfRem = s.sfRem from hkept, toNat_sub_one hrem]
  cases r with
  | outputFault => exact ⟨m, by omega, by rw [hrun, stepForLoop_succ_of_fault hne hstep]; rfl⟩
  | ok =>
    rw [stepForLoop_succ_of_ok hne hstep]
    cases fuel with
    | zero =>
      have hlast : s'.sfRem - 1#32 = 0#32 := BitVec.eq_of_toNat_eq hleft
      exact ⟨m, by omega, hrun.trans (stepDone_counted_last hlast)⟩
    | succ fuel =>
      have hmore : s'.sfRem - 1#32 ≠ 0#32 := fun h => by simp [h] at hleft
      obtain ⟨m', hm', hgap⟩ := run_stepDone_counted (s := s') (pos := none) hmore
      obtain ⟨m'', hm'', hloop⟩ := run_stepForLoop fuel (s := afterCountedStep s') (by
        rw [afterCountedStep_sfRem, hleft])
      refine ⟨m + m' + m'', by omega, ?_⟩
      rw [Flight.run_add, Flight.run_add, hrun, ← hloop, ← hgap]
      rfl

/-! Each command on a ready block, as its pseudocode runs. -/

theorem execSetDir_of_ready {s : State} (h : s.Ready) (d : Dir) :
    exec (.setDir d) s = .next (endCommand .ok { startCommand s with dir := d }) := by
  simp only [exec, execSetDir, accept_ready h]

theorem execStep_of_ready {s : State} (h : s.Ready) :
    exec .step s = .next (endCommand (doStep (startCommand s)).1 (doStep (startCommand s)).2) := by
  simp only [exec, execStep, accept_ready h]

theorem execStepFor_of_ready {s : State} (h : s.Ready) (n : BitVec 32) (ivl : BitVec 28) :
    exec (.stepFor n ivl) s =
      .next (endCommand (stepForLoop (stepCount n) (loadStepFor n ivl (startCommand s))).1
        (clearStepFor (stepForLoop (stepCount n) (loadStepFor n ivl (startCommand s))).2)) := by
  simp only [exec, execStepFor, accept_ready h]

/-- A STEPFOR reaches its answer: at once for `n` = 0, else after the events of its steps. -/
theorem run_launch_stepFor (n : BitVec 32) (ivl : BitVec 28) (s : State) :
    ∃ m ≤ 6 * stepCount n, (launch (.stepFor n ivl) s).run m =
      Flight.answering true (stepForLoop (stepCount n) (loadStepFor n ivl (startCommand s))) := by
  by_cases hn : n = 0#32
  · subst hn
    exact ⟨0, Nat.zero_le _, rfl⟩
  · obtain ⟨fuel, hfuel⟩ : ∃ fuel, n.toNat = fuel + 1 :=
      Nat.exists_eq_succ_of_ne_zero fun h => hn (BitVec.eq_of_toNat_eq h)
    have hlaunch : launch (.stepFor n ivl) s = Flight.atLine (loadStepFor n ivl (startCommand s)) true .in1 := by
      simp [launch, Flight.atLine, hn]
    rw [hlaunch, stepCount, hfuel]
    exact run_stepForLoop fuel hfuel

/-- An accepted command reaches its answer within its bound, with the result and the state that `exec` ends with. -/
theorem run_launch (i : Instr) {s : State} (hready : s.Ready) :
    ∃ m < eventBound i, ∃ counted p, (launch i s).run m = Flight.answering counted p ∧
      exec i s = .next (endCommand p.1 (if counted then clearStepFor p.2 else p.2)) := by
  cases i with
  | setDir d => exact ⟨0, Nat.one_pos, false, (.ok, _), rfl, execSetDir_of_ready hready d⟩
  | step =>
    obtain ⟨m, hm, hrun⟩ := run_step (startCommand s) false
    refine ⟨m, Nat.lt_succ_of_le hm, false, doStep (startCommand s), hrun.trans ?_, execStep_of_ready hready⟩
    obtain ⟨r, s'⟩ := doStep (startCommand s)
    cases r <;> rfl
  | stepFor n ivl =>
    obtain ⟨m, hm, hrun⟩ := run_launch_stepFor n ivl s
    exact ⟨m, Nat.lt_succ_of_le hm, true, _, hrun, execStepFor_of_ready hready n ivl⟩

/-- A command that still runs was running all along. -/
theorem run_pos_ne_none {f : Flight} {m j : Nat} (h : (f.run m).pos ≠ none) (hj : j ≤ m) : (f.run j).pos ≠ none := by
  intro hnone
  obtain ⟨d, rfl⟩ := Nat.exists_eq_add_of_le hj
  rw [Flight.run_add, Flight.run_idle hnone] at h
  exact h hnone

/-- Settles O53: the command's answer, one event later the state `exec` ends in. -/
theorem eventByEventRunEndsInExec : Obligations.EventByEventRunEndsInExec := by
  intro i s hready
  obtain ⟨m, hm, counted, p, hrun, hexec⟩ := run_launch i hready
  have hlast : (launch i s).run (m + 1) = (Flight.answering counted p).advance := by rw [Flight.run_add, hrun]; rfl
  refine ⟨m + 1, Nat.le_add_left 1 m, hm, by rw [hlast]; rfl, by rw [hlast, hexec]; rfl, fun j hj => ?_⟩
  have hpos : ((launch i s).run m).pos ≠ none := by rw [hrun]; exact Option.some_ne_none _
  have hposj := run_pos_ne_none hpos (Nat.le_of_lt_succ hj)
  exact ⟨hposj, busyWhileRunning_run_launch i s j hposj⟩

end Sys2Proof.Machine
